-- ==== Sys2Proof/Word.lean ====
section
/-! DEFINITION. The bit vectors of the machine: nibbles, bytes and 32-bit words (00_scope.md R11). -/

namespace Sys2Proof

/-- A 4-bit value, an argument of the tables of 40_primitives.md R94. -/
abbrev Nibble := BitVec 4

/-- 8 bits (R11). -/
abbrev Byte := BitVec 8

/-- 32 bits, unsigned (R11). -/
abbrev Word := BitVec 32

end Sys2Proof
end

