-- ==== Sys2Proof/Syntax.lean ====
section
/-! DEFINITION. The nine commands (30_encoding.md R72), one constructor per row of spec/opcode_table.json.
A command word has no operand field (R70), so no constructor has an argument. -/

namespace Sys2Proof

/-- The command set of TFCORE; 45_control.md R187: "The nine commands ... are the whole command set". -/
inductive Instr where
  /-- `ESIZE`, padded size of a length (43_padding.md R155). -/
  | esize
  /-- `ENC`, encrypt a message (44_chaining.md R172). -/
  | enc
  /-- `DEC`, decrypt a message (44_chaining.md R174). -/
  | dec
  /-- `KS`, build and keep a schedule (41_keyschedule.md R121). -/
  | ks
  /-- `EBLK`, encrypt the block in `BLK` (42_blocktransform.md R138). -/
  | eblk
  /-- `DBLK`, decrypt the block in `BLK` (42_blocktransform.md R139). -/
  | dblk
  /-- `PAD`, padding insertion on a buffer (43_padding.md R157). -/
  | pad
  /-- `UNPAD`, padding removal on a buffer (43_padding.md R160). -/
  | unpad
  /-- `CLR`, clear key material and schedule (45_control.md R186). -/
  | clr
deriving DecidableEq, Repr

end Sys2Proof
end

