-- ==== Sys2Proof/WellFormed.lean ====
section
/-! DEFINITION. Which command words are legal (30_encoding.md R70, R76), written from the ranges of R76 and
not from the decoder, and which instructions are well formed. -/

namespace Sys2Proof

/-- First check of R76: the reserved bits [7:4] are 0, that is, the word is below `0x10`. -/
def reservedClear (c : Byte) : Bool := c.toNat < 0x10

/-- Second check of R76: `OP`, the word modulo 16, is not `0x0` and not one of `0xA` to `0xF`. -/
def opcodeAssigned (c : Byte) : Bool := 0x1 ≤ c.toNat % 16 && c.toNat % 16 < 0xA

/-- A command word is legal when both checks pass; R76 calls every other word illegal. -/
def legalWord (c : Byte) : Bool := reservedClear c && opcodeAssigned c

/-- R70: "The command word has no register field, no immediate and no mode field", so no instruction
has an operand that could be out of range: each is well formed. -/
def Instr.wellFormed : Instr → Bool
  | .esize => true
  | .enc => true
  | .dec => true
  | .ks => true
  | .eblk => true
  | .dblk => true
  | .pad => true
  | .unpad => true
  | .clr => true

end Sys2Proof
end

