-- ==== Sys2Proof/Decode.lean ====
section
/-! DEFINITION. The decoder of command words (30_encoding.md R70 to R77), total on every byte and refusing by
name, and after it the encoder, written from the opcode map of R72. -/

namespace Sys2Proof

/-- Why a command word is illegal (R76). -/
inductive IllegalWord where
  /-- `RSV != 0`. -/
  | reservedBits (rsv : BitVec 4)
  /-- `RSV = 0` and `OP` is `0x0` or one of `0xA` to `0xF`. -/
  | noSuchOpcode (op : BitVec 4)
deriving DecidableEq, Repr

/-- Field `OP`, bits [3:0] of a command word (R70). -/
def opField (c : Byte) : BitVec 4 := c.extractLsb' 0 4

/-- Field `RSV`, bits [7:4] of a command word (R70). -/
def rsvField (c : Byte) : BitVec 4 := c.extractLsb' 4 4

/-- The command an opcode selects (R72), `none` for the seven unassigned ones (R76). -/
def opcodeMap (op : BitVec 4) : Option Instr :=
  match op.toNat with
  | 0x1 => some .esize
  | 0x2 => some .enc
  | 0x3 => some .dec
  | 0x4 => some .ks
  | 0x5 => some .eblk
  | 0x6 => some .dblk
  | 0x7 => some .pad
  | 0x8 => some .unpad
  | 0x9 => some .clr
  | _ => none

/-- R72: "A command word selects a command exactly when `RSV = 0` and `OP` is one of the nine values". -/
def decodeWord (c : Byte) : Except IllegalWord Instr :=
  if rsvField c = 0 then
    match opcodeMap (opField c) with
    | some i => .ok i
    | none => .error (.noSuchOpcode (opField c))
  else .error (.reservedBits (rsvField c))

/-- The opcode of each command: the last hexadecimal digit of the first column of R72. -/
def opcode : Instr → BitVec 4
  | .esize => 0x1
  | .enc => 0x2
  | .dec => 0x3
  | .ks => 0x4
  | .eblk => 0x5
  | .dblk => 0x6
  | .pad => 0x7
  | .unpad => 0x8
  | .clr => 0x9

/-- Format `C` of R70: `RSV = 0000` above `OP`. -/
def encode (i : Instr) : Byte := (0 : BitVec 4) ++ opcode i

/-- The command word made of the low `nbits` bits of `w`. An instruction is one byte (R70), so bits above
bit 7 are no part of it (log 7). -/
def tableWord (nbits w : Nat) : Byte := BitVec.ofNat 8 (w % 2 ^ nbits)

/-- What the decoder reads from a row of spec/opcode_table.json. -/
def decodeTableWord (nbits w : Nat) : Option Instr :=
  match decodeWord (tableWord nbits w) with
  | .ok i => some i
  | .error _ => none

end Sys2Proof
end

