-- ==== Sys2Proof/Config.lean ====
section
/-! DEFINITION. What one instance of the core fixes (the open parameters of 92_eei_decisions.md) and the
free value of the model. -/

namespace Sys2Proof

/-- The open parameters of an instance. State carries one value of this type, no step changes it, and
every statement holds for all of them. -/
structure Config where
  /-- `AW`, the width in bits of an address and of a length (00_scope.md R8, D5). The spec takes `AW >= 8`. -/
  aw : Nat
  /-- `MEMMAP`, as the unpopulated ranges (first address, number of bytes) of the platform (20_memory.md R59). -/
  holes : List (Nat × Nat)
deriving DecidableEq, Repr

/-- The instance that State.reset stands for. DESIGN CHOICE (log 1, log 2): `AW = 16`, the width of the
programs of 95_test_vectors.md section 8, and every address populated (20_memory.md R59: "In this spec `MEM` is total"). -/
def Config.standard : Config := { aw := 16, holes := [] }

/-- The byte of `MEM` at an address that nothing has written since the `n`-th reset: not defined by the spec
(10_state.md R43, 20_memory.md R59), so a free value (DESIGN CHOICE, log 3). No body: no proof can see one. -/
opaque Config.memAfterReset (n address : Nat) : Byte

end Sys2Proof
end

