-- ==== Sys2Proof/Machine/State.lean ====
section
/-! DEFINITION. The state of TFCORE (10_state.md R20), the host's primitives (R21), the reasons a step can stop,
and the state after reset (R43). -/

namespace Sys2Proof.Machine

/-- The twelve registers with a host port (10_state.md R22), under the spec's names. `K` and `SB` have none (R35). -/
inductive Reg where
  | CMD | STATUS | SSTAT | KLEN | RESULT | SRC | SLEN | DST | DCAP | KEY | IV | BLK
deriving DecidableEq, Repr

/-- What the host can do to the core and its memory, one primitive each (10_state.md R21, 20_memory.md R58,
70_reset_and_hazards.md R220). `Issue(c)` is a write of `c` to `CMD` (R21). -/
inductive HostOp where
  /-- `HostWrite(r, i, v)`. -/
  | write (r : Reg) (i : Nat) (v : Nat)
  /-- `HostRead(r, i)`. -/
  | read (r : Reg) (i : Nat)
  /-- The host stores a byte of `MEM` itself (R58; the line `mem` of R83). -/
  | memStore (address : Nat) (v : Byte)
  /-- The host reads a byte of `MEM` itself (R58). -/
  | memLoad (address : Nat)
  /-- Reset, between two commands (R220, R221). -/
  | reset
deriving DecidableEq, Repr

/-- The buffer memory: the bytes written since reset, (address, byte), strictly rising in address. An
address not listed holds no value of the list's: reading it gives the free value (log 3). -/
abbrev Memory := List Host.Cell

/-- A block, an IV, the register `BLK`: exactly 16 bytes (00_scope.md R7). -/
abbrev Block := Vector Byte 16

/-- `K[0..39]` (10_state.md R33). -/
abbrev RoundKeys := Vector Word 40

/-- `SB[0..3][0..255]` (10_state.md R34). -/
abbrev SBoxes := Vector (Vector Byte 256) 4

/-- All the state of the core, its memory and the model's own fields (the last group). Plain data. -/
structure State where
  /-- `CMD` (R23). -/
  cmd : Byte
  /-- `STATUS` (R24). -/
  status : Byte
  /-- `SSTAT` (R25): bit 7 `SV`, bits [2:0] `KN`. -/
  sstat : Byte
  /-- `KLEN` (R27). -/
  klen : Byte
  /-- `RESULT` (R26), below `2^AW`. -/
  result : Nat
  /-- `SRC` (R28), below `2^AW`. -/
  src : Nat
  /-- `SLEN` (R28), below `2^AW`. -/
  slen : Nat
  /-- `DST` (R29), below `2^AW`. -/
  dst : Nat
  /-- `DCAP` (R29), below `2^AW`. -/
  dcap : Nat
  /-- `KEY[0..31]` (R30). -/
  key : Vector Byte 32
  /-- `IV[0..15]` (R31). -/
  iv : Block
  /-- `BLK[0..15]` (R32). -/
  blk : Block
  /-- `K[0..39]` (R33). -/
  k : RoundKeys
  /-- `SB[0..3][0..255]` (R34). -/
  sb : SBoxes
  /-- `MEM` (20_memory.md R50). -/
  mem : Memory
  /-- The instance's parameters (log 1, log 2). -/
  cfg : Config
  /-- How many resets came before: the argument of the free value (log 3, log 4). -/
  memEpoch : Nat
  /-- The host's primitives still to be performed, oldest first (log 5). -/
  host : List HostOp
  /-- What the host's reads returned, oldest first (log 6). -/
  replies : List Nat
deriving DecidableEq, Repr

/-- Why the machine stops with a fault. Both constructors are raised by the host's own accesses to `MEM`
(`HostOp.memStore`, `HostOp.memLoad`), never by a command. -/
inductive Fault where
  /-- The host accesses an address that is not in `[0, 2^AW)`: `MEM` has no such byte (20_memory.md R50). Safe (log 9). -/
  | hostAddressOutsideMem
  /-- The host accesses an unpopulated address (20_memory.md R59). Safe (log 9). -/
  | hostAddressUnpopulated
deriving DecidableEq, Repr

/-- Why a step has no meaning. Every one of them is safe: nothing follows from a refused step. -/
inductive Refusal where
  /-- Raised by an arm of `exec` whose instruction has no meaning yet. None is left. -/
  | notModelled (mnemonic : String)
  /-- Raised by `ESIZE` when the padded size does not fit `RESULT`: "a model refuses it" (43_padding.md R156, U2). -/
  | paddedSizeTooLarge
  /-- Raised by `ENC`, `DEC`, `PAD`, `UNPAD` when a needed range passes `2^AW`: "a model refuses it" (20_memory.md R56, U3). -/
  | rangeBeyondAddressSpace
  /-- Raised by `ENC`, `DEC`, `PAD`, `UNPAD` when a needed range touches an unpopulated address:
  "the spec gives such a command no meaning" (20_memory.md R59, U4). -/
  | rangeUnpopulated
  /-- Raised by a `HostWrite` or `HostRead` of an element the register does not have (10_state.md R22; log 8). -/
  | noSuchElement
deriving DecidableEq, Repr

/-- What a command or a step answers. -/
abbrev Result := Host.Outcome State Fault Refusal

/-- The machine right after reset: every register zero (10_state.md R43), `MEM` with nothing listed (its contents are
not defined, R43), and the model's own fields at the values their log entries name (log 1 to log 6). -/
def State.reset : State where
  cmd := 0
  status := 0
  sstat := 0
  klen := 0
  result := 0
  src := 0
  slen := 0
  dst := 0
  dcap := 0
  key := Vector.replicate 32 0
  iv := Vector.replicate 16 0
  blk := Vector.replicate 16 0
  k := Vector.replicate 40 0
  sb := Vector.replicate 4 (Vector.replicate 256 0)
  mem := []
  cfg := Config.standard
  memEpoch := 0
  host := []
  replies := []

end Sys2Proof.Machine
end

