-- ==== Sys2Proof/Machine/Flags.lean ====
section
/-! DEFINITION. The status codes (10_state.md R24, 60_exceptions.md R196) and the fields of `SSTAT` (10_state.md R25, R37):
the flag `SV` and the number `KN`. "TFCORE has no other flag, condition code or predicate" (R37). -/

namespace Sys2Proof.Machine

/-- The error causes of R196. -/
inductive CmdError where
  | invalidKeyLength
  | invalidCiphertextLength
  | bufferTooSmall
  | noSchedule
  | illegalCommand
deriving DecidableEq, Repr

/-- `STATUS` code 0, OK (R24). -/
def statusOk : Byte := 0

/-- The `STATUS` codes of R24 and R196. -/
def CmdError.code : CmdError → Byte
  | .invalidKeyLength => 1
  | .invalidCiphertextLength => 2
  | .bufferTooSmall => 3
  | .noSchedule => 4
  | .illegalCommand => 5

/-- Flag `SV`, bit 7 of `SSTAT` (R25). -/
def State.sv (s : State) : Bool := s.sstat.getLsbD 7

/-- Field `KN`, bits [2:0] of `SSTAT` (R25). -/
def State.kn (s : State) : Nat := (s.sstat.extractLsb' 0 3).toNat

/-- `SSTAT` with `SV = 1` and `KN = k`; bits [6:3] are 0 (R25). -/
def sstatValid (k : Nat) : Byte := (1 : BitVec 1) ++ (0 : BitVec 4) ++ BitVec.ofNat 3 k

/-- `SSTAT` with `SV = 0`, and then `KN = 0` (R25, R37). -/
def sstatInvalid : Byte := 0

end Sys2Proof.Machine
end

