-- ==== Sys2Proof/Machine/Operands.lean ====
section
/-! DEFINITION. Assembling operands from bytes: byte order, words, blocks and the key (00_scope.md R12 to R14,
30_encoding.md R74, R75, R78, R79). -/

namespace Sys2Proof.Machine

/-! ### Tables and byte strings -/

/-- The `n` elements `f 0, ..., f (n-1)` in order. -/
def tabulate {α : Type} (n : Nat) (f : Nat → α) : Vector α n :=
  ⟨((List.range n).map f).toArray, by simp⟩

/-- The first 16 bytes of a byte string as a block (R165); a byte the string does not have counts as 0
(no rule asks for one, log 13). -/
def blockOf (s : List Byte) : Block := tabulate 16 (fun j => s.getD j 0)

/-- Byte-wise exclusive or of two 16-byte strings (R12, R102 (a)). -/
def xorBlock (a b : Block) : Block :=
  ⟨(List.zipWith (· ^^^ ·) a.toList b.toList).toArray, by simp⟩

/-! ### Words -/

/-- `byte(w, j)`: bits `8j+7` to `8j` of `w` (R11). Lane `j` of R79. -/
def byteOf (w : Word) (j : Nat) : Byte := w.extractLsb' (8 * j) 8

/-- `LE32`: a word from four bytes, the first least significant (R13). -/
def le32 (b0 b1 b2 b3 : Byte) : Word := b3 ++ b2 ++ b1 ++ b0

/-- `LE32(s[i], s[i+1], s[i+2], s[i+3])`. -/
def le32At (s : List Byte) (i : Nat) : Word :=
  le32 (s.getD i 0) (s.getD (i + 1) 0) (s.getD (i + 2) 0) (s.getD (i + 3) 0)

/-- `BYTES32(w)` (R13). -/
def bytes32 (w : Word) : List Byte := [byteOf w 0, byteOf w 1, byteOf w 2, byteOf w 3]

/-- `ROL32(w, n)` (R14). -/
def rol32 (w : Word) (n : Nat) : Word := w.rotateLeft n

/-- `ROR32(w, n) = ROL32(w, 32 - n)` (R14). -/
def ror32 (w : Word) (n : Nat) : Word := rol32 w (32 - n)

/-- `ROR4(x, 1) = (x >> 1) | ((x & 1) << 3)` (R14). -/
def ror4 (x : Nibble) : Nibble := (x >>> 1) ||| ((x &&& 1) <<< 3)

/-! ### Blocks as words -/

/-- The four words of a block or of the state of a block transform. -/
structure Quad where
  w0 : Word
  w1 : Word
  w2 : Word
  w3 : Word
deriving DecidableEq, Repr

/-- `W[i] = LE32(B[4i], B[4i+1], B[4i+2], B[4i+3])` (R53, R78). -/
def blockWords (b : Block) : Quad where
  w0 := le32 b[0] b[1] b[2] b[3]
  w1 := le32 b[4] b[5] b[6] b[7]
  w2 := le32 b[8] b[9] b[10] b[11]
  w3 := le32 b[12] b[13] b[14] b[15]

/-- `BYTES32(W[0]) ++ BYTES32(W[1]) ++ BYTES32(W[2]) ++ BYTES32(W[3])` (R78). -/
def wordsBlock (q : Quad) : Block :=
  ⟨(bytes32 q.w0 ++ bytes32 q.w1 ++ bytes32 q.w2 ++ bytes32 q.w3).toArray, by simp [bytes32]⟩

/-! ### The key -/

/-- R74: "Every other value of `KLEN` ... is an illegal key length". -/
def keyLengthLegal (n : Nat) : Bool := n == 16 || n == 24 || n == 32

/-- `KEY[0 .. KLEN)`, the key a command works with (10_state.md R30). -/
def State.keyBytes (s : State) : List Byte := s.key.toList.take s.klen.toNat

/-- `M[i] = LE32(key[4i], key[4i+1], key[4i+2], key[4i+3])` (R54, R75). -/
def keyWord (key : List Byte) (i : Nat) : Word := le32At key (4 * i)

end Sys2Proof.Machine
end

