-- ==== Sys2Proof/Machine/Ops.lean ====
section
/-! DEFINITION. The shared operations: memory (20_memory.md), the range check, the end of a command, raising an error
(60_exceptions.md R201) and the schedule store. -/

namespace Sys2Proof.Machine

/-! ### Memory -/

/-- The canonical form: addresses strictly rise. An unlisted address holds no value of the list's (log 3), so
no entry can equal one. -/
abbrev Memory.wf (m : Memory) : Prop := List.Pairwise (fun c d => c.1 < d.1) m

/-- The byte listed at an address, if one is. -/
def Memory.lookup : Memory → Nat → Option Byte
  | [], _ => none
  | (a, b) :: m, x => if x = a then some b else Memory.lookup m x

/-- `MEM[x] <- v`, keeping the canonical form. -/
def Memory.store : Memory → Nat → Byte → Memory
  | [], x, v => [(x, v)]
  | (a, b) :: m, x, v =>
    if x < a then (x, v) :: (a, b) :: m
    else if x = a then (x, v) :: m
    else (a, b) :: Memory.store m x v

/-- The bytes of a string stored at rising addresses from `x` (R52). -/
def Memory.storeAll (m : Memory) (x : Nat) : List Byte → Memory
  | [] => m
  | v :: vs => Memory.storeAll (m.store x v) (x + 1) vs

/-- `MEM[x]`: the byte written last, or the free value where nothing was written since reset (log 3). -/
def State.readByte (s : State) (x : Nat) : Byte :=
  (s.mem.lookup x).getD (Config.memAfterReset s.memEpoch x)

/-- `MemRead(x, n)` (R51). -/
def State.memRead (s : State) (x n : Nat) : List Byte := (List.range n).map (fun j => s.readByte (x + j))

/-- `MemWrite(x, len(v), v)` (R52). -/
def State.memWrite (s : State) (x : Nat) (v : List Byte) : State := { s with mem := s.mem.storeAll x v }

/-! ### The address space -/

/-- The number of addresses, `2^AW` (R50). -/
def addressSpace (c : Config) : Nat := 2 ^ c.aw

/-- Does the platform populate the address (R59)? -/
def populated (c : Config) (x : Nat) : Bool := c.holes.all (fun h => x < h.1 || h.1 + h.2 ≤ x)

/-- Does the range of `n` bytes at `x` touch an unpopulated address? -/
def touchesHole (c : Config) (x n : Nat) : Bool :=
  c.holes.any (fun h => 0 < n && 0 < h.2 && x < h.1 + h.2 && h.1 < x + n)

/-- Why the spec gives a command no meaning on the range of `n` bytes at `x`, if it does: it passes `2^AW` (R56, U3)
or touches an unpopulated address (R59, U4). The order of the two is not observable in the spec (log 14). -/
def rangeRefusal (c : Config) (r : Nat × Nat) : Option Refusal :=
  if addressSpace c < r.1 + r.2 then some .rangeBeyondAddressSpace
  else if touchesHole c r.1 r.2 then some .rangeUnpopulated
  else none

/-- The next state `t` of a command that needs the ranges `rs` (address, number of bytes), all its checks passed;
refused if one of them does not fit. DESIGN CHOICE (log 15): the destination range of `ENC`, `DEC` and `PAD` is that of the
result bytes for unpopulated addresses too (R59, U4), not the whole buffer of `DCAP` bytes; R56 says so for `2^AW` only. -/
def onRanges (c : Config) (rs : List (Nat × Nat)) (t : State) : Result :=
  match rs.findSome? (rangeRefusal c) with
  | some r => .refused r
  | none => .next t

/-! ### The end of a command -/

/-- The end of a command that did what its rule says: `STATUS <- 0`, `RESULT <- r` (30_encoding.md R71). -/
def State.finish (s : State) (r : Nat) : State := { s with status := statusOk, result := r }

/-- `raise E`, the one exception of this hardware (00_scope.md R17, 60_exceptions.md R201 (a), (b)): `STATUS` takes the code,
`RESULT` takes 0, and nothing else changes; "Nothing is saved anywhere" (R201). There is no return
from it: the host's next command overwrites `STATUS` (R207). What R201 (g) adds for `KS`, `ENC` and `DEC` is `clearSchedule`. -/
def State.raise (s : State) (e : CmdError) : State := { s with status := e.code, result := 0 }

/-! ### The schedule store -/

/-- `K[0..39] <- 0 ; SB[0..3][0..255] <- 0 ; SV <- 0 ; KN <- 0` (10_state.md R37, R38). -/
def State.clearSchedule (s : State) : State :=
  { s with k := Vector.replicate 40 0, sb := Vector.replicate 4 (Vector.replicate 256 0), sstat := sstatInvalid }

/-- The schedule store set to a schedule of `n` key units: `SV <- 1 ; KN <- n` (10_state.md R37). -/
def State.keepSchedule (s : State) (k : RoundKeys) (sb : SBoxes) (n : Nat) : State :=
  { s with k := k, sb := sb, sstat := sstatValid n }

end Sys2Proof.Machine
end

