-- ==== Sys2Proof/Machine/Primitives.lean ====
section
/-! DEFINITION. Arithmetic primitives and fixed tables (40_primitives.md). The constants are the spec's, which marks
them "from general knowledge, not in source" (log 10). -/

namespace Sys2Proof.Machine

/-! ### Words -/

/-- `PHT(a, b) = (a +32 b, a +32 (2*b mod 2^32))` (R101). -/
def pht (a b : Word) : Word × Word := (a + b, a + 2 * b)

/-! ### The field GF(2^8) -/

/-- One turn of the loop of R91 on `t`: `t <- t << 1 ; if t[8] = 1: t <- t ^ p`. -/
def timesX (p : BitVec 9) (t : Byte) : Byte :=
  let u : BitVec 9 := (t.setWidth 9) <<< 1
  (if u.getLsbD 8 then u ^^^ p else u).setWidth 8

/-- `GFMUL(a, b, p)` (R91): the loop over `i = 0 .. 7` on the pair `(r, t)`. -/
def gfmul (a b : Byte) (p : BitVec 9) : Byte :=
  ([0, 1, 2, 3, 4, 5, 6, 7].foldl
    (fun rt i => (if b.getLsbD i then rt.1 ^^^ rt.2 else rt.1, timesX p rt.2)) ((0 : Byte), a)).1

/-- The polynomial of the MDS matrix (R92). -/
def polyMds : BitVec 9 := 0x169

/-- The polynomial of the Reed-Solomon matrix (R93). -/
def polyRs : BitVec 9 := 0x14D

/-- `MUL169` (R92). -/
def mul169 (a b : Byte) : Byte := gfmul a b polyMds

/-- `MUL14D` (R93). -/
def mul14D (a b : Byte) : Byte := gfmul a b polyRs

/-! ### The permutations q0 and q1 -/

/-- The four 16-entry tables of a permutation (R94). -/
structure NibbleTables where
  t0 : List Nibble
  t1 : List Nibble
  t2 : List Nibble
  t3 : List Nibble

/-- The construction `Q` (R94). -/
def permute (t : NibbleTables) (x : Byte) : Byte :=
  let a0 : Nibble := x.extractLsb' 4 4
  let b0 : Nibble := x.extractLsb' 0 4
  let a1 := a0 ^^^ b0
  let b1 := a0 ^^^ ror4 b0 ^^^ 8 * a0
  let a2 := t.t0.getD a1.toNat 0
  let b2 := t.t1.getD b1.toNat 0
  let a3 := a2 ^^^ b2
  let b3 := a2 ^^^ ror4 b2 ^^^ 8 * a2
  let a4 := t.t2.getD a3.toNat 0
  let b4 := t.t3.getD b3.toNat 0
  b4 ++ a4

/-- The tables of `q0` (R95). -/
def tablesQ0 : NibbleTables where
  t0 := [0x8, 0x1, 0x7, 0xD, 0x6, 0xF, 0x3, 0x2, 0x0, 0xB, 0x5, 0x9, 0xE, 0xC, 0xA, 0x4]
  t1 := [0xE, 0xC, 0xB, 0x8, 0x1, 0x2, 0x3, 0x5, 0xF, 0x4, 0xA, 0x6, 0x7, 0x0, 0x9, 0xD]
  t2 := [0xB, 0xA, 0x5, 0xE, 0x6, 0xD, 0x9, 0x0, 0xC, 0x8, 0xF, 0x3, 0x2, 0x4, 0x7, 0x1]
  t3 := [0xD, 0x7, 0xF, 0x4, 0x1, 0x2, 0x6, 0xE, 0x9, 0xB, 0x3, 0x0, 0x8, 0x5, 0xC, 0xA]

/-- The tables of `q1` (R96). -/
def tablesQ1 : NibbleTables where
  t0 := [0x2, 0x8, 0xB, 0xD, 0xF, 0x7, 0x6, 0xE, 0x3, 0x1, 0x9, 0x4, 0x0, 0xA, 0xC, 0x5]
  t1 := [0x1, 0xE, 0x2, 0xB, 0x4, 0xC, 0x3, 0x7, 0x6, 0xD, 0xA, 0x5, 0xF, 0x9, 0x0, 0x8]
  t2 := [0x4, 0xC, 0x7, 0x5, 0x1, 0x6, 0x9, 0xA, 0x0, 0xE, 0xD, 0x8, 0x2, 0xB, 0x3, 0xF]
  t3 := [0xB, 0x9, 0x5, 0x1, 0xC, 0x3, 0xD, 0xE, 0x6, 0x4, 0x7, 0xF, 0x2, 0x0, 0x8, 0xA]

/-- `q0` (R95). -/
def q0 (x : Byte) : Byte := permute tablesQ0 x

/-- `q1` (R96). -/
def q1 (x : Byte) : Byte := permute tablesQ1 x

/-! ### The MDS and the Reed-Solomon matrix -/

/-- Row `i` of `MDS` (R98). -/
def mdsRow (i : Fin 4) : List Byte :=
  match i with
  | 0 => [0x01, 0xEF, 0x5B, 0x5B]
  | 1 => [0x5B, 0xEF, 0xEF, 0x01]
  | 2 => [0xEF, 0x5B, 0x01, 0xEF]
  | 3 => [0xEF, 0x01, 0xEF, 0x5B]

/-- Row `i` of `RS` (R100). -/
def rsRow (i : Fin 4) : List Byte :=
  match i with
  | 0 => [0x01, 0xA4, 0x55, 0x87, 0x5A, 0x58, 0xDB, 0x9E]
  | 1 => [0xA4, 0x56, 0x82, 0xF3, 0x1E, 0xC6, 0x68, 0xE5]
  | 2 => [0x02, 0xA1, 0xFC, 0xC1, 0x47, 0xAE, 0x3D, 0x19]
  | 3 => [0xA4, 0x55, 0x87, 0x5A, 0x58, 0xDB, 0x9E, 0x03]

/-- One entry of a matrix product: the exclusive or over `j` of `row[j]` times `v[j]` in the field. -/
def dotProduct (p : BitVec 9) (row v : List Byte) : Byte :=
  (List.zipWith (fun m y => gfmul m y p) row v).foldl (· ^^^ ·) 0

/-- `MDSMUL(y0, y1, y2, y3)` (R99). -/
def mdsmul (y0 y1 y2 y3 : Byte) : Word :=
  let y := [y0, y1, y2, y3]
  le32 (dotProduct polyMds (mdsRow 0) y) (dotProduct polyMds (mdsRow 1) y)
    (dotProduct polyMds (mdsRow 2) y) (dotProduct polyMds (mdsRow 3) y)

/-- `RSMUL(m0, ..., m7)` (R100), the eight bytes as a string. -/
def rsmul (m : List Byte) : Word :=
  le32 (dotProduct polyRs (rsRow 0) m) (dotProduct polyRs (rsRow 1) m)
    (dotProduct polyRs (rsRow 2) m) (dotProduct polyRs (rsRow 3) m)

end Sys2Proof.Machine
end

