-- ==== Sys2Proof/Machine/KeySchedule.lean ====
section
/-! DEFINITION. KeySchedule and the command `KS` (41_keyschedule.md). -/

namespace Sys2Proof.Machine

/-! ### Key words and S words -/

/-- `k = len(key) / 8` (R111). -/
def keyUnits (key : List Byte) : Nat := key.length / 8

/-- `Me[i] = M[2i]`, `i` = 0..k-1 (R112). -/
def keyEven (key : List Byte) : List Word := (List.range (keyUnits key)).map (fun i => keyWord key (2 * i))

/-- `Mo[i] = M[2i+1]`, `i` = 0..k-1 (R112). -/
def keyOdd (key : List Byte) : List Word := (List.range (keyUnits key)).map (fun i => keyWord key (2 * i + 1))

/-- `S_i = RSMUL(key[8i], ..., key[8i+7])` (R113). -/
def sWord (key : List Byte) (i : Nat) : Word := rsmul ((key.drop (8 * i)).take 8)

/-- `SL[t] = S_(k-1-t)` (R114). -/
def sList (key : List Byte) : List Word := ((List.range (keyUnits key)).map (sWord key)).reverse

/-! ### The function h -/

/-- Which of the two permutations (R115). -/
inductive Perm where
  | q0
  | q1
deriving DecidableEq, Repr

/-- The permutation named. -/
def Perm.apply : Perm → Byte → Byte
  | .q0 => Sys2Proof.Machine.q0
  | .q1 => Sys2Proof.Machine.q1

/-- Row `t` of the table `QSEL` (R115); `t` is at most 4, since a key has at most 4 units. -/
def qselRow : Nat → List Perm
  | 0 => [.q1, .q0, .q1, .q0]
  | 1 => [.q0, .q0, .q1, .q1]
  | 2 => [.q0, .q1, .q0, .q1]
  | 3 => [.q1, .q1, .q0, .q0]
  | _ => [.q1, .q0, .q0, .q1]

/-- `QSEL[t][j]` (R115). -/
def qsel (t j : Nat) : Perm := (qselRow t).getD j .q0

/-- The loop `for t = k downto 1` of `HSUB` in lane `j`: `y[j] <- QSEL[t][j](y[j]) ^ byte(L[t-1], j)` (R115). -/
def hTiers (j : Nat) (l : List Word) : Nat → Byte → Byte
  | 0, y => y
  | t + 1, y => hTiers j l t ((qsel (t + 1) j).apply y ^^^ byteOf (l.getD t 0) j)

/-- Lane `j` of `HSUB` started at the byte `x`: the tiers, then the last permutation (R115). -/
def hLane (j : Nat) (l : List Word) (x : Byte) : Byte := (qsel 0 j).apply (hTiers j l l.length x)

/-- `HSUB(X, L)` (R115). -/
def hSub (x : Word) (l : List Word) : Vector Byte 4 := tabulate 4 (fun j => hLane j l (byteOf x j))

/-- `H(X, L) = MDSMUL(HSUB(X, L))` (R115). -/
def hWord (x : Word) (l : List Word) : Word :=
  let y := hSub x l
  mdsmul y[0] y[1] y[2] y[3]

/-! ### Round keys and S-boxes -/

/-- The word whose four bytes all equal `n`, `n * rho` (R119). -/
def repeated (n : Nat) : Word := BitVec.ofNat 32 n * 0x01010101

/-- `K[2i]` and `K[2i+1]` (R119). -/
def roundKeyPair (me mo : List Word) (i : Nat) : Word × Word :=
  let a := hWord (repeated (2 * i)) me
  let b := rol32 (hWord (repeated (2 * i + 1)) mo) 8
  let p := pht a b
  (p.1, rol32 p.2 9)

/-- `K[0..39]` (R119). -/
def roundKeys (key : List Byte) : RoundKeys :=
  let me := keyEven key
  let mo := keyOdd key
  tabulate 40 (fun n => if n % 2 = 0 then (roundKeyPair me mo (n / 2)).1 else (roundKeyPair me mo (n / 2)).2)

/-- `SB[j][x]`: the chain of lane `j` started at `x`, with the list `SL` (R118). -/
def sBoxes (key : List Byte) : SBoxes :=
  let l := sList key
  tabulate 4 (fun j => tabulate 256 (fun x => hLane j l (BitVec.ofNat 8 x)))

/-! ### The command -/

/-- `KS` (R121): an illegal length clears the store and raises InvalidKeyLength; otherwise the schedule of
`KEY[0 .. KLEN)` is kept. -/
def execKs (s : State) : Result :=
  if keyLengthLegal s.klen.toNat then
    .next ((s.keepSchedule (roundKeys s.keyBytes) (sBoxes s.keyBytes) (s.klen.toNat / 8)).finish 0)
  else .next (s.clearSchedule.raise .invalidKeyLength)

end Sys2Proof.Machine
end

