-- ==== Sys2Proof/Machine/BlockTransform.lean ====
section
/-! DEFINITION. BlockTransform and the commands `EBLK` and `DBLK` (42_blocktransform.md). -/

namespace Sys2Proof.Machine

/-- `SB[j][x]` for one table. -/
def sboxAt (t : Vector Byte 256) (x : Byte) : Byte := t[x.toNat]'x.isLt

/-- `G(X)` (R130). -/
def gWord (sb : SBoxes) (x : Word) : Word :=
  mdsmul (sboxAt sb[0] (byteOf x 0)) (sboxAt sb[1] (byteOf x 1)) (sboxAt sb[2] (byteOf x 2)) (sboxAt sb[3] (byteOf x 3))

/-- `F(a, b, r)` (R131): the pseudo-Hadamard transform of `G(a)` and `G(ROL32(b, 8))`, plus `K[2r + 8]` and `K[2r + 9]`. -/
def fWord (k : RoundKeys) (sb : SBoxes) (a b : Word) (r : Fin 16) : Word × Word :=
  let p := pht (gWord sb a) (gWord sb (rol32 b 8))
  (p.1 + k[2 * r.val + 8], p.2 + k[2 * r.val + 9])

/-- One encryption round (R132). -/
def encRound (k : RoundKeys) (sb : SBoxes) (q : Quad) (r : Fin 16) : Quad :=
  let f := fWord k sb q.w0 q.w1 r
  { q with w2 := ror32 (q.w2 ^^^ f.1) 1, w3 := rol32 q.w3 1 ^^^ f.2 }

/-- One decryption round (R135). -/
def decRound (k : RoundKeys) (sb : SBoxes) (q : Quad) (r : Fin 16) : Quad :=
  let f := fWord k sb q.w0 q.w1 r
  { q with w2 := rol32 q.w2 1 ^^^ f.1, w3 := ror32 (q.w3 ^^^ f.2) 1 }

/-- The swap of the word-pairs (R133, R136). -/
def swapPairs (q : Quad) : Quad := { w0 := q.w2, w1 := q.w3, w2 := q.w0, w3 := q.w1 }

/-- Whitening with four sub-keys (R133, R136). -/
def whiten (q : Quad) (k0 k1 k2 k3 : Word) : Quad :=
  { w0 := q.w0 ^^^ k0, w1 := q.w1 ^^^ k1, w2 := q.w2 ^^^ k2, w3 := q.w3 ^^^ k3 }

/-- The round numbers in the order of encryption (10_state.md R40). -/
def roundOrder : List (Fin 16) := [0, 1, 2, 3, 4, 5, 6, 7, 8, 9, 10, 11, 12, 13, 14, 15]

/-- `EncryptBlock(K, SB, B)` (R133). -/
def encryptBlock (k : RoundKeys) (sb : SBoxes) (b : Block) : Block :=
  let q := whiten (blockWords b) k[0] k[1] k[2] k[3]
  let q := roundOrder.foldl (fun q r => if r = 15 then encRound k sb q r else swapPairs (encRound k sb q r)) q
  wordsBlock (whiten q k[4] k[5] k[6] k[7])

/-- `DecryptBlock(K, SB, C)` (R136). -/
def decryptBlock (k : RoundKeys) (sb : SBoxes) (c : Block) : Block :=
  let q := whiten (blockWords c) k[4] k[5] k[6] k[7]
  let q := roundOrder.reverse.foldl
    (fun q r => if r = 0 then decRound k sb q r else swapPairs (decRound k sb q r)) q
  wordsBlock (whiten q k[0] k[1] k[2] k[3])

/-- `EBLK` (R138). -/
def execEblk (s : State) : Result :=
  if s.sv then .next ({ s with blk := encryptBlock s.k s.sb s.blk }.finish 0) else .next (s.raise .noSchedule)

/-- `DBLK` (R139). -/
def execDblk (s : State) : Result :=
  if s.sv then .next ({ s with blk := decryptBlock s.k s.sb s.blk }.finish 0) else .next (s.raise .noSchedule)

end Sys2Proof.Machine
end

