-- ==== Sys2Proof/Machine/Padding.lean ====
section
/-! DEFINITION. PaddingCodec and the commands `ESIZE`, `PAD` and `UNPAD` (43_padding.md). -/

namespace Sys2Proof.Machine

/-- `EncryptedSize(n)` (R150). -/
def encryptedSize (n : Nat) : Nat := if n % 16 = 0 then n else n + (16 - n % 16)

/-- `PadInsert(m) = m ++ rep(r, r)` (R152). -/
def padInsert (m : List Byte) : List Byte :=
  let r := encryptedSize m.length - m.length
  m ++ List.replicate r (BitVec.ofNat 8 r)

/-- `RecoveredLength(p)` (R153). -/
def recoveredLength (p : List Byte) : Nat :=
  let v := p.getD (p.length - 1) 0
  if 1 ≤ v.toNat && v.toNat ≤ 16 && (List.range v.toNat).all (fun j => p.getD (p.length - (j + 1)) 0 == v)
  then p.length - v.toNat else p.length

/-- The lengths `DEC` and `UNPAD` accept: positive and a multiple of 16 (R159, 44_chaining.md R173). -/
def ciphertextLengthLegal (n : Nat) : Bool := 0 < n && n % 16 == 0

/-- `ESIZE` (R155); a size that does not fit `RESULT` is refused (R156, U2). -/
def execEsize (s : State) : Result :=
  let need := encryptedSize s.slen
  if need < addressSpace s.cfg then .next (s.finish need) else .refused .paddedSizeTooLarge

/-- `PAD` (R157). -/
def execPad (s : State) : Result :=
  let need := encryptedSize s.slen
  if s.dcap < need then .next (s.raise .bufferTooSmall)
  else onRanges s.cfg [(s.src, s.slen), (s.dst, need)]
    ((s.memWrite s.dst (padInsert (s.memRead s.src s.slen))).finish need)

/-- `UNPAD` (R160). -/
def execUnpad (s : State) : Result :=
  if ciphertextLengthLegal s.slen then
    onRanges s.cfg [(s.src, s.slen)] (s.finish (recoveredLength (s.memRead s.src s.slen)))
  else .next (s.raise .invalidCiphertextLength)

end Sys2Proof.Machine
end

