-- ==== Sys2Proof/Machine/Chaining.lean ====
section
/-! DEFINITION. ChainingEngine and the commands `ENC` and `DEC` (44_chaining.md). -/

namespace Sys2Proof.Machine

/-- The first `b` blocks of a byte string (R165). -/
def toBlocks : Nat → List Byte → List Block
  | 0, _ => []
  | b + 1, p => blockOf p :: toBlocks b (p.drop 16)

/-- The bytes of a list of blocks in order. -/
def fromBlocks (bs : List Block) : List Byte := bs.flatMap (fun b => b.toList)

/-- The loop of `CbcEncrypt` (R166) from the chaining value `prev`. -/
def cbcEncryptBlocks (k : RoundKeys) (sb : SBoxes) (prev : Block) : List Block → List Block
  | [] => []
  | p :: ps =>
    let c := encryptBlock k sb (xorBlock p prev)
    c :: cbcEncryptBlocks k sb c ps

/-- The loop of `CbcDecrypt` (R167); the chaining value is always the input block before. -/
def cbcDecryptBlocks (k : RoundKeys) (sb : SBoxes) (prev : Block) : List Block → List Block
  | [] => []
  | c :: cs => xorBlock (decryptBlock k sb c) prev :: cbcDecryptBlocks k sb c cs

/-- `CbcEncrypt(K, SB, iv, p)` (R166). -/
def cbcEncrypt (k : RoundKeys) (sb : SBoxes) (iv : Block) (p : List Byte) : List Byte :=
  fromBlocks (cbcEncryptBlocks k sb iv (toBlocks (p.length / 16) p))

/-- `CbcDecrypt(K, SB, iv, c)` (R167). -/
def cbcDecrypt (k : RoundKeys) (sb : SBoxes) (iv : Block) (c : List Byte) : List Byte :=
  fromBlocks (cbcDecryptBlocks k sb iv (toBlocks (c.length / 16) c))

/-- `Encrypt(pt, key, iv)` (R168). -/
def encryptMessage (pt key : List Byte) (iv : Block) : List Byte :=
  cbcEncrypt (roundKeys key) (sBoxes key) iv (padInsert pt)

/-- `Decrypt(ct, key, iv)` (R169), the first component; the second is its `recoveredLength`. -/
def decryptMessage (ct key : List Byte) (iv : Block) : List Byte :=
  cbcDecrypt (roundKeys key) (sBoxes key) iv ct

/-- `ENC` (R170, R172): key length, then capacity; the schedule store is cleared on every outcome. -/
def execEnc (s : State) : Result :=
  let need := encryptedSize s.slen
  if !keyLengthLegal s.klen.toNat then .next (s.clearSchedule.raise .invalidKeyLength)
  else if s.dcap < need then .next (s.clearSchedule.raise .bufferTooSmall)
  else onRanges s.cfg [(s.src, s.slen), (s.dst, need)]
    ((s.memWrite s.dst (encryptMessage (s.memRead s.src s.slen) s.keyBytes s.iv)).clearSchedule.finish need)

/-- `DEC` (R171, R174, R175): ciphertext length, then key length, then capacity; the schedule store is
cleared on every outcome. -/
def execDec (s : State) : Result :=
  if !ciphertextLengthLegal s.slen then .next (s.clearSchedule.raise .invalidCiphertextLength)
  else if !keyLengthLegal s.klen.toNat then .next (s.clearSchedule.raise .invalidKeyLength)
  else if s.dcap < s.slen then .next (s.clearSchedule.raise .bufferTooSmall)
  else
    let p := decryptMessage (s.memRead s.src s.slen) s.keyBytes s.iv
    onRanges s.cfg [(s.src, s.slen), (s.dst, s.slen)]
      ((s.memWrite s.dst p).clearSchedule.finish (recoveredLength p))

end Sys2Proof.Machine
end

