-- ==== Sys2Proof/Machine/Control.lean ====
section
/-! DEFINITION. The command `CLR` (45_control.md). -/

namespace Sys2Proof.Machine

/-- `CLR` (R186). -/
def execClr (s : State) : Result :=
  .next (({ s with
    key := Vector.replicate 32 0
    klen := 0
    iv := Vector.replicate 16 0
    blk := Vector.replicate 16 0 }.clearSchedule).finish 0)

end Sys2Proof.Machine
end

