-- ==== Sys2Proof/Machine/Dispatch.lean ====
section
/-! DEFINITION. The meaning of each command: one arm per row of spec/opcode_table.json. -/

namespace Sys2Proof.Machine

def exec (i : Instr) (s : State) : Host.Outcome State Fault Refusal :=
  match i with
  | .esize => Sys2Proof.Machine.execEsize s
  | .enc => Sys2Proof.Machine.execEnc s
  | .dec => Sys2Proof.Machine.execDec s
  | .ks => Sys2Proof.Machine.execKs s
  | .eblk => Sys2Proof.Machine.execEblk s
  | .dblk => Sys2Proof.Machine.execDblk s
  | .pad => Sys2Proof.Machine.execPad s
  | .unpad => Sys2Proof.Machine.execUnpad s
  | .clr => Sys2Proof.Machine.execClr s

end Sys2Proof.Machine
end

