-- ==== Sys2Proof/Machine/HostPort.lean ====
section
/-! DEFINITION. The host's side: the register table (10_state.md R22), register reads and writes (R21), direct accesses to `MEM`
(20_memory.md R58) and reset (70_reset_and_hazards.md R220). -/

namespace Sys2Proof.Machine

/-- The register's number (R22, first column). -/
def Reg.number : Reg → Nat
  | .CMD => 0
  | .STATUS => 1
  | .SSTAT => 2
  | .KLEN => 3
  | .RESULT => 4
  | .SRC => 5
  | .SLEN => 6
  | .DST => 7
  | .DCAP => 8
  | .KEY => 9
  | .IV => 10
  | .BLK => 11

/-- The number of elements of a register (R22). -/
def Reg.elements : Reg → Nat
  | .KEY => 32
  | .IV => 16
  | .BLK => 16
  | .CMD | .STATUS | .SSTAT | .KLEN | .RESULT | .SRC | .SLEN | .DST | .DCAP => 1

/-- The bits of one element (R22). -/
def Reg.width (c : Config) : Reg → Nat
  | .RESULT | .SRC | .SLEN | .DST | .DCAP => c.aw
  | .CMD | .STATUS | .SSTAT | .KLEN | .KEY | .IV | .BLK => 8

/-- A value truncated to the width of an address or a length (R21). -/
def truncate (c : Config) (v : Nat) : Nat := v % addressSpace c

/-- The storing half of `HostWrite(r, i, v)`: element `i` takes `v` truncated to its width (R21). A write to a read-only
register is ignored (R22). For `CMD` this stores the word and does not yet run it (30_encoding.md R71). -/
def State.putReg (s : State) (r : Reg) (i v : Nat) : State :=
  match r with
  | .CMD => { s with cmd := BitVec.ofNat 8 v }
  | .STATUS => s
  | .SSTAT => s
  | .KLEN => { s with klen := BitVec.ofNat 8 v }
  | .RESULT => s
  | .SRC => { s with src := truncate s.cfg v }
  | .SLEN => { s with slen := truncate s.cfg v }
  | .DST => { s with dst := truncate s.cfg v }
  | .DCAP => { s with dcap := truncate s.cfg v }
  | .KEY => { s with key := s.key.setIfInBounds i (BitVec.ofNat 8 v) }
  | .IV => { s with iv := s.iv.setIfInBounds i (BitVec.ofNat 8 v) }
  | .BLK => { s with blk := s.blk.setIfInBounds i (BitVec.ofNat 8 v) }

/-- `HostRead(r, i)`: the value of element `i` (R21); every one of the twelve registers can be read (R22). -/
def State.getReg (s : State) (r : Reg) (i : Nat) : Nat :=
  match r with
  | .CMD => s.cmd.toNat
  | .STATUS => s.status.toNat
  | .SSTAT => s.sstat.toNat
  | .KLEN => s.klen.toNat
  | .RESULT => s.result
  | .SRC => s.src
  | .SLEN => s.slen
  | .DST => s.dst
  | .DCAP => s.dcap
  | .KEY => (s.key.toList.getD i 0).toNat
  | .IV => (s.iv.toList.getD i 0).toNat
  | .BLK => (s.blk.toList.getD i 0).toNat

/-- A value handed back to the host (log 6). -/
def State.reply (s : State) (v : Nat) : State := { s with replies := s.replies ++ [v] }

/-- `HostRead`: it changes nothing but what the host has been told. An element the register does not have is refused (log 8). -/
def hostRead (r : Reg) (i : Nat) (s : State) : Result :=
  if i < r.elements then .next (s.reply (s.getReg r i)) else .refused .noSuchElement

/-- The fault of a direct access, if the address is not in `MEM` or not populated (log 9). -/
def hostAddressFault (c : Config) (x : Nat) : Option Fault :=
  if addressSpace c ≤ x then some .hostAddressOutsideMem
  else if populated c x then none
  else some .hostAddressUnpopulated

/-- The host stores one byte of `MEM` (R58). -/
def hostMemStore (x : Nat) (v : Byte) (s : State) : Result :=
  match hostAddressFault s.cfg x with
  | some f => .fault f
  | none => .next (s.memWrite x [v])

/-- The host reads one byte of `MEM` (R58). -/
def hostMemLoad (x : Nat) (s : State) : Result :=
  match hostAddressFault s.cfg x with
  | some f => .fault f
  | none => .next (s.reply (s.readByte x).toNat)

/-- Reset (R220): every register and the schedule store zero. The instance's parameters stay what they are, the host's pending
primitives and what it was told are the host's, and what `MEM` holds afterwards is not defined: nothing is
listed and the free value is a fresh one (log 4). -/
def hostReset (s : State) : State :=
  { State.reset with cfg := s.cfg, memEpoch := s.memEpoch + 1, host := s.host, replies := s.replies }

end Sys2Proof.Machine
end

