-- ==== Sys2Proof/Machine/Issue.lean ====
section
/-! DEFINITION. Issuing a command word (30_encoding.md R71) and performing one primitive of the host (10_state.md R21). -/

namespace Sys2Proof.Machine

/-- `Issue(c)` (R71): store `c` in `CMD`; decode it; if it is illegal raise IllegalCommand (R76); otherwise run the command. -/
def issue (c : Byte) (s : State) : Result :=
  let t := s.putReg .CMD 0 c.toNat
  match decodeWord c with
  | .error _ => .next (t.raise .illegalCommand)
  | .ok i => exec i t

/-- `HostWrite(r, i, v)` (R21): on `CMD` it is `Issue` of the word truncated to 8 bits, elsewhere the store alone. An
element the register does not have is refused (log 8). -/
def hostWrite (r : Reg) (i v : Nat) (s : State) : Result :=
  if i < r.elements then
    if r = .CMD then issue (BitVec.ofNat 8 v) s else .next (s.putReg r i v)
  else .refused .noSuchElement

/-- One primitive of the host. -/
def perform (op : HostOp) (s : State) : Result :=
  match op with
  | .write r i v => hostWrite r i v s
  | .read r i => hostRead r i s
  | .memStore x v => hostMemStore x v s
  | .memLoad x => hostMemLoad x s
  | .reset => .next (hostReset s)

/-- The host's next primitive put before those pending (log 5): `Issue` of the word `c`. -/
def State.pushIssue (s : State) (c : Byte) : State := { s with host := .write .CMD 0 c.toNat :: s.host }

end Sys2Proof.Machine
end

