-- ==== Sys2Proof/Machine/Step.lean ====
section
/-! DEFINITION. One step of the machine: the host's next primitive, if there is one (20_memory.md R62). -/

namespace Sys2Proof.Machine

/-- With nothing pending the core is idle "and keeps all its state" (60_exceptions.md R210); otherwise the oldest pending
primitive is performed, a command to its end (10_state.md R21, 20_memory.md R61). -/
def step (s : State) : Host.Outcome State Fault Refusal :=
  match s.host with
  | [] => .next s
  | op :: rest => perform op { s with host := rest }

/-- The state whose very next step issues the instruction of a row of spec/opcode_table.json (log 5, log 7). -/
def State.withFetchWord (s : State) (nbits w : Nat) : State := s.pushIssue (tableWord nbits w)

end Sys2Proof.Machine
end

