-- ==== Sys2Proof/Machine/HostProgram.lean ====
section
/-! DEFINITION. Host programs: the lines of 30_encoding.md R83 and the pseudo-instructions of R84, as the lists of host
primitives they stand for. -/

namespace Sys2Proof.Machine

/-! ### Lines (R83) -/

/-- `wr REG, v`. -/
def lineWr (r : Reg) (v : Nat) : List HostOp := [.write r 0 v]

/-- `wrb REG, <hex>`: elements from the length of the string up are not touched. -/
def lineWrb (r : Reg) (s : List Byte) : List HostOp :=
  (List.range s.length).map (fun j => .write r j (s.getD j 0).toNat)

/-- `mem a, <hex>`. -/
def lineMem (a : Nat) (s : List Byte) : List HostOp :=
  (List.range s.length).map (fun j => .memStore (a + j) (s.getD j 0))

/-- `fill a, n, v`. -/
def lineFill (a n : Nat) (v : Byte) : List HostOp := lineMem a (List.replicate n v)

/-- `cmd v`. -/
def lineCmd (v : Byte) : List HostOp := [.write .CMD 0 v.toNat]

/-- A mnemonic alone on its line: `Issue(c)` with `c` from R72. -/
def lineIssue (i : Instr) : List HostOp := lineCmd (encode i)

/-- `rd REG`. -/
def lineRd (r : Reg) : List HostOp := [.read r 0]

/-- `rdb REG`. -/
def lineRdb (r : Reg) : List HostOp := (List.range r.elements).map (fun j => .read r j)

/-! ### Pseudo-instructions (R84) -/

/-- `encryptedSize n`. -/
def progEncryptedSize (n : Nat) : List HostOp :=
  lineWr .SLEN n ++ lineIssue .esize ++ lineRd .STATUS ++ lineRd .RESULT

/-- The operand lines that `encrypt` and `decrypt` share. -/
def progMessageOperands (a n : Nat) (key iv : List Byte) (d c : Nat) : List HostOp :=
  lineWrb .KEY key ++ lineWr .KLEN key.length ++ lineWrb .IV iv ++ lineWr .SRC a ++ lineWr .SLEN n ++
    lineWr .DST d ++ lineWr .DCAP c

/-- `encrypt pt@a len n, key <hex>, iv <hex>, out@d cap c`. -/
def progEncrypt (a n : Nat) (key iv : List Byte) (d c : Nat) : List HostOp :=
  progMessageOperands a n key iv d c ++ lineIssue .enc ++ lineRd .STATUS ++ lineRd .RESULT

/-- `decrypt ct@a len n, key <hex>, iv <hex>, out@d cap c`. -/
def progDecrypt (a n : Nat) (key iv : List Byte) (d c : Nat) : List HostOp :=
  progMessageOperands a n key iv d c ++ lineIssue .dec ++ lineRd .STATUS ++ lineRd .RESULT

/-- `build key <hex>`. -/
def progBuild (key : List Byte) : List HostOp :=
  lineWrb .KEY key ++ lineWr .KLEN key.length ++ lineIssue .ks ++ lineRd .STATUS

/-- `encryptBlock <hex16>`. -/
def progEncryptBlock (b : List Byte) : List HostOp :=
  lineWrb .BLK b ++ lineIssue .eblk ++ lineRd .STATUS ++ lineRdb .BLK

/-- `decryptBlock <hex16>`. -/
def progDecryptBlock (b : List Byte) : List HostOp :=
  lineWrb .BLK b ++ lineIssue .dblk ++ lineRd .STATUS ++ lineRdb .BLK

end Sys2Proof.Machine
end

