-- ==== Sys2Proof/Safety.lean ====
section
/-! DEFINITION. The terms in which claims are made: ranges that fit, what two states share, the invariant of the machine. -/

namespace Sys2Proof.Machine

/-- The `n` bytes at `x` lie in `[0, 2^AW)` (20_memory.md R56) and are populated (R59). -/
def Fits (c : Config) (x n : Nat) : Prop :=
  x + n ≤ 2 ^ c.aw ∧ ∀ a, x ≤ a → a < x + n → populated c a = true

/-- Refused because a range a command needs does not fit (20_memory.md R56, U3, or R59, U4; which of the two, log 14). -/
abbrev RefusedForRange (r : Result) : Prop := r = .refused .rangeBeyondAddressSpace ∨ r = .refused .rangeUnpopulated

/-- Every byte of memory reads the same. -/
def SameMemory (s t : State) : Prop := ∀ a, t.readByte a = s.readByte a

/-- Every byte of memory outside the `n` bytes at `x` reads the same. -/
def SameMemoryOutside (s t : State) (x n : Nat) : Prop := ∀ a, a < x ∨ x + n ≤ a → t.readByte a = s.readByte a

/-- `CMD`, every operand register and every field of the model's own are the same. (Left out: `STATUS`, `RESULT`, `BLK`, the
schedule store with `SSTAT`, and `MEM`.) -/
structure OperandsKept (s t : State) : Prop where
  cmd : t.cmd = s.cmd
  klen : t.klen = s.klen
  key : t.key = s.key
  iv : t.iv = s.iv
  src : t.src = s.src
  slen : t.slen = s.slen
  dst : t.dst = s.dst
  dcap : t.dcap = s.dcap
  cfg : t.cfg = s.cfg
  memEpoch : t.memEpoch = s.memEpoch
  host : t.host = s.host
  replies : t.replies = s.replies

/-- The schedule store and `SSTAT` are the same. -/
def SameSchedule (s t : State) : Prop := t.k = s.k ∧ t.sb = s.sb ∧ t.sstat = s.sstat

/-- The schedule store is empty: `K` and `SB` all zero, `SV = 0`, `KN = 0` (10_state.md R38). -/
def ScheduleCleared (t : State) : Prop :=
  (∀ n : Fin 40, t.k[n] = 0) ∧ (∀ j : Fin 4, ∀ x : Fin 256, t.sb[j][x] = 0) ∧ t.sstat = 0

/-- `KLEN` is 16, 24 or 32 (30_encoding.md R74). -/
abbrev KeyLengthOk (s : State) : Prop := s.klen.toNat = 16 ∨ s.klen.toNat = 24 ∨ s.klen.toNat = 32

/-- `SLEN` is positive and a multiple of 16 (44_chaining.md R173). -/
abbrev CiphertextLengthOk (s : State) : Prop := 0 < s.slen ∧ s.slen % 16 = 0

/-- The padding test of 43_padding.md R153: the last byte `v` of `p` is in 1..16 and the last `v` bytes all equal `v`. -/
abbrev LooksPadded (p : List Byte) (v : Nat) : Prop :=
  (p.getD (p.length - 1) 0).toNat = v ∧ 1 ≤ v ∧ v ≤ 16 ∧ ∀ j, 1 ≤ j → j ≤ v → (p.getD (p.length - j) 0).toNat = v

/-- Every register and the whole schedule store hold zero (10_state.md R43). -/
structure AllRegistersZero (t : State) : Prop where
  cmd : t.cmd = 0
  status : t.status = 0
  sstat : t.sstat = 0
  klen : t.klen = 0
  result : t.result = 0
  src : t.src = 0
  slen : t.slen = 0
  dst : t.dst = 0
  dcap : t.dcap = 0
  key : ∀ j : Fin 32, t.key[j] = 0
  iv : ∀ j : Fin 16, t.iv[j] = 0
  blk : ∀ j : Fin 16, t.blk[j] = 0
  k : ∀ n : Fin 40, t.k[n] = 0
  sb : ∀ j : Fin 4, ∀ x : Fin 256, t.sb[j][x] = 0

/-- What `KS`, `ENC` or `DEC` leaves when it raises the error of code `e` (60_exceptions.md R201): `STATUS` and `RESULT`
written, the schedule store cleared, everything else as before. -/
structure RaisedAndCleared (s t : State) (e : Byte) : Prop where
  status : t.status = e
  result : t.result = 0
  cleared : ScheduleCleared t
  operands : OperandsKept s t
  blk : t.blk = s.blk
  mem : t.mem = s.mem

/-- The 16 bytes of memory at `x`. -/
def State.readBlock (s : State) (x : Nat) : Block := blockOf (s.memRead x 16)

/-- What holds of every state a run reaches. -/
structure State.Inv (s : State) : Prop where
  /-- `AW >= 8` (00_scope.md R8). -/
  awLarge : 8 ≤ s.cfg.aw
  /-- Memory is in its canonical form. -/
  memCanonical : s.mem.wf
  /-- Only addresses that exist and are populated are listed (20_memory.md R50, R59). -/
  memInSpace : ∀ c ∈ s.mem, c.1 < 2 ^ s.cfg.aw ∧ populated s.cfg c.1 = true
  /-- Addresses and lengths are `AW`-bit numbers (00_scope.md R8, 30_encoding.md R81). -/
  resultInRange : s.result < 2 ^ s.cfg.aw
  srcInRange : s.src < 2 ^ s.cfg.aw
  slenInRange : s.slen < 2 ^ s.cfg.aw
  dstInRange : s.dst < 2 ^ s.cfg.aw
  dcapInRange : s.dcap < 2 ^ s.cfg.aw
  /-- `STATUS`: "values 6 to 255 never occur" (10_state.md R24). -/
  statusKnown : s.status.toNat ≤ 5
  /-- "The only values `SSTAT` ever takes are `0x00`, `0x82`, `0x83`, `0x84`" (10_state.md R25). -/
  sstatKnown : s.sstat = 0x00 ∨ s.sstat = 0x82 ∨ s.sstat = 0x83 ∨ s.sstat = 0x84
  /-- The schedule invariant (10_state.md R36). -/
  scheduleOfSomeKey : s.sv = true →
    ∃ key : List Byte, key.length = 8 * s.kn ∧ s.k = roundKeys key ∧ s.sb = sBoxes key
  /-- With `SV = 0` the schedule store is empty (10_state.md R38, R43, 41_keyschedule.md R121). -/
  scheduleEmpty : s.sv = false → ScheduleCleared s

end Sys2Proof.Machine
end

