-- ==== Sys2Proof/Certificates/Slice0/Obligations.lean ====
section
/-! DEFINITION. The statements for the provers. Each docstring names the rules of spec/ it formalises. No statement fixes the
parameters `AW` and `MEMMAP`, and none rests on a value of the free byte `Config.memAfterReset`. -/

open Sys2Proof Sys2Proof.Machine

/-! ### Encoding and issue -/

/-- 30_encoding.md R72: the nine words written out from the table's second column, and no other word is a command. -/
def Obligations.CommandWordsSelectCommands : Prop :=
  decodeWord 0b00000001#8 = .ok .esize ∧ decodeWord 0b00000010#8 = .ok .enc ∧ decodeWord 0b00000011#8 = .ok .dec ∧
  decodeWord 0b00000100#8 = .ok .ks ∧ decodeWord 0b00000101#8 = .ok .eblk ∧ decodeWord 0b00000110#8 = .ok .dblk ∧
  decodeWord 0b00000111#8 = .ok .pad ∧ decodeWord 0b00001000#8 = .ok .unpad ∧ decodeWord 0b00001001#8 = .ok .clr ∧
  ∀ c : Byte, (∃ i, decodeWord c = .ok i) ↔
    c.extractLsb' 4 4 = 0#4 ∧ 1 ≤ (c.extractLsb' 0 4).toNat ∧ (c.extractLsb' 0 4).toNat ≤ 9

/-- Decoding and encoding agree: a word decodes to a well-formed instruction exactly when it is that instruction's word
(30_encoding.md R70, R72). -/
def Obligations.DecodeInvertsEncode : Prop :=
  ∀ i : Instr, i.wellFormed = true → ∀ c : Byte, decodeWord c = .ok i ↔ c = encode i

/-- 30_encoding.md R76: which words are illegal, how many, and what issuing one does. -/
def Obligations.IllegalWordsRaiseIllegalCommand : Prop :=
  (∀ c : Byte, (∃ e, decodeWord c = .error e) ↔ 0x10 ≤ c.toNat ∨ c.toNat % 16 = 0 ∨ 0xA ≤ c.toNat % 16) ∧
  ((List.range 256).filter (fun n => (decodeTableWord 8 n).isNone)).length = 247 ∧
  ∀ (c : Byte) (s : State), (∃ e, decodeWord c = .error e) →
    issue c s = .next { s with cmd := c, status := 5, result := 0 }

/-- A step runs the decoded instruction (30_encoding.md R71, 10_state.md R21): the primitive that writes a legal word to
`CMD` stores it there and runs the command; `withFetchWord` makes that the very next step. -/
def Obligations.StepRunsTheDecodedCommand : Prop :=
  (∀ (s : State) (v : Nat) (rest : List HostOp) (i : Instr),
    s.host = .write .CMD 0 v :: rest → decodeWord (BitVec.ofNat 8 v) = .ok i →
      step s = exec i { s with host := rest, cmd := BitVec.ofNat 8 v }) ∧
  ∀ (s : State) (nbits w : Nat) (i : Instr), decodeTableWord nbits w = some i →
    step (s.withFetchWord nbits w) = exec i { s with cmd := tableWord nbits w }

/-- The host's order is the only order (20_memory.md R62): a step that answers next uses up exactly the oldest primitive, tells
the host at most one value and only for a read, and leaves the instance's parameters alone; with nothing pending the core
is idle and keeps all its state (60_exceptions.md R210). The list of pending primitives and of replies are
the model's own (log 5, log 6). -/
def Obligations.StepsFollowTheHostsOrder : Prop :=
  (∀ s : State, s.host = [] → step s = .next s) ∧
  ∀ (s t : State) (op : HostOp) (rest : List HostOp), s.host = op :: rest → step s = .next t →
    t.host = rest ∧ t.cfg = s.cfg ∧
    ((∀ r i, op ≠ .read r i) → (∀ x, op ≠ .memLoad x) → t.replies = s.replies) ∧
    ∃ new : List Nat, t.replies = s.replies ++ new ∧ new.length ≤ 1

/-! ### Reset and the invariant -/

/-- 10_state.md R43, for the state after reset and for the reset primitive from any state. That the reset primitive keeps the
instance's parameters, the primitives pending and the replies is the model's choice (log 1, log 5, log 6). -/
def Obligations.ResetZeroesEveryRegister : Prop :=
  AllRegistersZero State.reset ∧
  ∀ (s : State) (rest : List HostOp), s.host = .reset :: rest →
    ∃ t, step s = .next t ∧ AllRegistersZero t ∧ t.cfg = s.cfg ∧ t.host = rest ∧ t.replies = s.replies

/-- 10_state.md R44: every register reads zero after reset, and what each command issued straight after reset reports, for
every instance (`AW >= 8`, any unpopulated ranges). -/
def Obligations.CommandsStraightAfterReset : Prop :=
  ∀ c : Config, 8 ≤ c.aw →
    (∀ r i, i < r.elements → State.getReg { State.reset with cfg := c } r i = 0) ∧
    (∃ t, issue (encode .ks) { State.reset with cfg := c } = .next t ∧ t.status = 1) ∧
    (∃ t, issue (encode .enc) { State.reset with cfg := c } = .next t ∧ t.status = 1) ∧
    (∃ t, issue (encode .dec) { State.reset with cfg := c } = .next t ∧ t.status = 2) ∧
    (∃ t, issue (encode .eblk) { State.reset with cfg := c } = .next t ∧ t.status = 4) ∧
    (∃ t, issue (encode .dblk) { State.reset with cfg := c } = .next t ∧ t.status = 4) ∧
    (∃ t, issue (encode .esize) { State.reset with cfg := c } = .next t ∧ t.status = 0 ∧ t.result = 0) ∧
    (∃ t, issue (encode .pad) { State.reset with cfg := c } = .next t ∧ t.status = 0 ∧ t.mem = []) ∧
    (∃ t, issue (encode .unpad) { State.reset with cfg := c } = .next t ∧ t.status = 2)

/-- The invariant holds after reset. -/
def Obligations.InvariantHoldsAtReset : Prop := State.reset.Inv

/-- Every step keeps the invariant, from every state that has it: memory in canonical form and inside the address
space, lengths and addresses below `2^AW` (00_scope.md R8), the values of `STATUS` and `SSTAT` (10_state.md R24, R25), the schedule that
of some key or empty (10_state.md R36, R38). -/
def Obligations.StepKeepsTheInvariant : Prop :=
  ∀ s t : State, s.Inv → step s = .next t → t.Inv

/-! ### The host's primitives -/

/-- 10_state.md R21, R22: a `HostWrite` to an `RW` register stores the value truncated to the element's width, changes no other
element of any register, no schedule, no byte of memory (an unwritten one neither) and none of the model's own fields but the
primitive used up (log 1 to log 6), and a `HostRead` after it returns that value. -/
def Obligations.HostWriteThenReadReturnsTruncated : Prop :=
  ∀ (s : State) (r : Reg) (i v : Nat) (rest : List HostOp),
    r ≠ .CMD → r ≠ .STATUS → r ≠ .SSTAT → r ≠ .RESULT → i < r.elements →
    s.host = .write r i v :: .read r i :: rest →
    ∃ t u, step s = .next t ∧ step t = .next u ∧ u.replies = s.replies ++ [v % 2 ^ r.width s.cfg] ∧
      (∀ r' i', i' < r'.elements → r' ≠ r ∨ i' ≠ i → t.getReg r' i' = s.getReg r' i') ∧
      t.k = s.k ∧ t.sb = s.sb ∧ t.mem = s.mem ∧ SameMemory s t ∧
      t.cfg = s.cfg ∧ t.memEpoch = s.memEpoch ∧ t.host = .read r i :: rest ∧ t.replies = s.replies

/-- 10_state.md R22: a `HostWrite` to a read-only register is ignored, and a `HostRead` changes nothing in the core. -/
def Obligations.ReadOnlyRegistersIgnoreWrites : Prop :=
  (∀ (s : State) (r : Reg) (v : Nat) (rest : List HostOp), r = .STATUS ∨ r = .SSTAT ∨ r = .RESULT →
    s.host = .write r 0 v :: rest → step s = .next { s with host := rest }) ∧
  ∀ (s : State) (r : Reg) (i : Nat) (rest : List HostOp), i < r.elements → s.host = .read r i :: rest →
    step s = .next { s with host := rest, replies := s.replies ++ [s.getReg r i] }

/-- 20_memory.md R58, R51, R52: a byte the host stores reads back, no other byte and no register changes; a byte the host loads
is reported and nothing changes. That an access outside `MEM` or to an unpopulated address stops with a fault of its own is the
model's choice (log 9). -/
def Obligations.HostMemoryAccess : Prop :=
  (∀ (s : State) (x : Nat) (v : Byte) (rest : List HostOp), s.mem.wf → x < 2 ^ s.cfg.aw → populated s.cfg x = true →
    s.host = .memStore x v :: rest →
    ∃ t, step s = .next t ∧ t.readByte x = v ∧ (∀ y, y ≠ x → t.readByte y = s.readByte y) ∧
      t = { s with host := rest, mem := t.mem }) ∧
  (∀ (s : State) (x : Nat) (rest : List HostOp), x < 2 ^ s.cfg.aw → populated s.cfg x = true →
    s.host = .memLoad x :: rest →
    step s = .next { s with host := rest, replies := s.replies ++ [(s.readByte x).toNat] }) ∧
  ∀ (s : State) (x : Nat) (v : Byte) (rest : List HostOp),
    (s.host = .memStore x v :: rest ∨ s.host = .memLoad x :: rest) →
    (2 ^ s.cfg.aw ≤ x → step s = .fault .hostAddressOutsideMem) ∧
    (x < 2 ^ s.cfg.aw → populated s.cfg x = false → step s = .fault .hostAddressUnpopulated)

/-! ### Primitives -/

/-- 40_primitives.md R91: the corner cases, and multiplication "is commutative, associative and distributes over `^`", for every
`p` "with bit 8 set". -/
def Obligations.FieldMultiplicationLaws : Prop :=
  ∀ (p : BitVec 9), p.getLsbD 8 = true → ∀ a b c : Byte,
    gfmul a 0 p = 0 ∧ gfmul 0 b p = 0 ∧ gfmul a 1 p = a ∧ gfmul a b p = gfmul b a p ∧
    gfmul (gfmul a b p) c p = gfmul a (gfmul b c p) p ∧
    gfmul a (b ^^^ c) p = gfmul a b p ^^^ gfmul a c p

/-- 40_primitives.md R99, R100: `MDSMUL` and `RSMUL` are linear and map zero to zero. -/
def Obligations.MatrixProductsAreLinear : Prop :=
  (∀ a0 a1 a2 a3 b0 b1 b2 b3 : Byte,
    mdsmul (a0 ^^^ b0) (a1 ^^^ b1) (a2 ^^^ b2) (a3 ^^^ b3) = mdsmul a0 a1 a2 a3 ^^^ mdsmul b0 b1 b2 b3) ∧
  mdsmul 0 0 0 0 = 0 ∧
  (∀ m n : List Byte, m.length = 8 → n.length = 8 →
    rsmul (List.zipWith (· ^^^ ·) m n) = rsmul m ^^^ rsmul n) ∧
  rsmul (List.replicate 8 0) = 0

/-- 40_primitives.md R94, 41_keyschedule.md R115, R118: `q0` and `q1` are permutations of the bytes, so is each lane of `HSUB` for a
fixed list, and so is each S-box of a key. -/
def Obligations.SubstitutionsArePermutations : Prop :=
  Function.Bijective q0 ∧ Function.Bijective q1 ∧
  (∀ (l : List Word) (j : Nat), Function.Bijective (hLane j l)) ∧
  ∀ (key : List Byte) (j : Fin 4), Function.Bijective (fun x : Byte => sboxAt (sBoxes key)[j] x)

/-! ### KeySchedule and `KS` -/

/-- 41_keyschedule.md R121 with R111, R118, R119: with a legal key length `KS` keeps the round keys (`A`, `B`, additions modulo 2^32 and the
two rotations) and the S-boxes (lane `j` of `HSUB(x * 0x01010101, SL)`) of `KEY[0 .. KLEN)`, sets `SV` and `KN`, reports 0 and 0, and
changes nothing else; with any other length it raises InvalidKeyLength and clears the store. -/
def Obligations.KsKeepsTheScheduleOfTheKey : Prop :=
  encode .ks = 0x04 ∧
  (∀ s : State, KeyLengthOk s →
    ∃ t, exec .ks s = .next t ∧ t.status = 0 ∧ t.result = 0 ∧ t.sv = true ∧ t.kn = s.klen.toNat / 8 ∧
      (∀ i : Fin 20,
        let a := hWord (BitVec.ofNat 32 (2 * i) * 0x01010101) (keyEven s.keyBytes)
        let b := rol32 (hWord (BitVec.ofNat 32 (2 * i + 1) * 0x01010101) (keyOdd s.keyBytes)) 8
        t.k[2 * i.val] = a + b ∧ t.k[2 * i.val + 1] = rol32 (a + 2 * b) 9) ∧
      (∀ (j : Fin 4) (x : Fin 256),
        t.sb[j][x] = (hSub (BitVec.ofNat 32 x * 0x01010101) (sList s.keyBytes))[j]) ∧
      OperandsKept s t ∧ t.blk = s.blk ∧ t.mem = s.mem) ∧
  ∀ s : State, ¬ KeyLengthOk s → ∃ t, exec .ks s = .next t ∧ RaisedAndCleared s t 1

/-- 41_keyschedule.md R121: "`KS` twice with the same key leaves the same state as once", whatever the key length. -/
def Obligations.KsTwiceIsOnce : Prop :=
  ∀ s t : State, exec .ks s = .next t → exec .ks t = .next t

/-- 10_state.md R30: key bytes at and above index `KLEN` influence no command. Two states that differ only there have the
same outcome but for those bytes; `CLR` erases even them. -/
def Obligations.UnusedKeyBytesHaveNoInfluence : Prop :=
  ∀ (s : State) (key' : Vector Byte 32), (∀ j : Fin 32, j.val < s.klen.toNat → key'[j] = s.key[j]) →
    (∀ i : Instr, i ≠ .clr →
      (∃ t, exec i s = .next t ∧ exec i { s with key := key' } = .next { t with key := key' }) ∨
      (∃ r, exec i s = .refused r ∧ exec i { s with key := key' } = .refused r)) ∧
    exec .clr { s with key := key' } = exec .clr s

/-! ### BlockTransform, `EBLK`, `DBLK` -/

/-- 42_blocktransform.md R130: with the S-boxes of a key, `G(X) = H(X, SL)`. -/
def Obligations.GIsHOfTheSWords : Prop :=
  ∀ (key : List Byte) (x : Word), gWord (sBoxes key) x = hWord x (sList key)

/-- 42_blocktransform.md R135: a decryption round undoes the encryption round of the same number, for every state and any store. -/
def Obligations.DecRoundUndoesEncRound : Prop :=
  ∀ (k : RoundKeys) (sb : SBoxes) (q : Quad) (r : Fin 16),
    decRound k sb (encRound k sb q r) r = q ∧ encRound k sb (decRound k sb q r) r = q

/-- 42_blocktransform.md R137, the inverse law: "it holds for any 40 words and any four tables". -/
def Obligations.DecryptBlockInvertsEncryptBlock : Prop :=
  ∀ (k : RoundKeys) (sb : SBoxes) (b : Block),
    decryptBlock k sb (encryptBlock k sb b) = b ∧ encryptBlock k sb (decryptBlock k sb b) = b

/-- 42_blocktransform.md R138: `EBLK`. -/
def Obligations.EblkEncryptsTheBlockRegister : Prop :=
  encode .eblk = 0x05 ∧
  (∀ s : State, s.sv = true →
    exec .eblk s = .next { s with blk := encryptBlock s.k s.sb s.blk, status := 0, result := 0 }) ∧
  ∀ s : State, s.sv = false → exec .eblk s = .next { s with status := 4, result := 0 }

/-- 42_blocktransform.md R139: `DBLK`, and `EBLK` then `DBLK`, or `DBLK` then `EBLK`, restores `BLK`. -/
def Obligations.DblkUndoesEblk : Prop :=
  encode .dblk = 0x06 ∧
  (∀ s : State, s.sv = true →
    exec .dblk s = .next { s with blk := decryptBlock s.k s.sb s.blk, status := 0, result := 0 } ∧
    (∃ t, exec .eblk s = .next t ∧ exec .dblk t = .next { s with status := 0, result := 0 }) ∧
    ∃ t, exec .dblk s = .next t ∧ exec .eblk t = .next { s with status := 0, result := 0 }) ∧
  ∀ s : State, s.sv = false → exec .dblk s = .next { s with status := 4, result := 0 }

/-! ### PaddingCodec, `ESIZE`, `PAD`, `UNPAD` -/

/-- 43_padding.md R151. -/
def Obligations.EncryptedSizeLaws : Prop :=
  ∀ n : Nat, encryptedSize n % 16 = 0 ∧ (encryptedSize n = n ↔ n % 16 = 0) ∧
    (n % 16 ≠ 0 → encryptedSize n = n + (16 - n % 16)) ∧
    n ≤ encryptedSize n ∧ encryptedSize n ≤ n + 15 ∧ encryptedSize (encryptedSize n) = encryptedSize n

/-- 43_padding.md R155, R156: `ESIZE` never raises; it is refused exactly when `SLEN > 2^AW - 16` and `SLEN` is no multiple of 16, and for
such an `SLEN` `PAD` and `ENC` raise BufferTooSmall. -/
def Obligations.EsizeReportsOrIsRefused : Prop :=
  encode .esize = 0x01 ∧
  ∀ s : State, 8 ≤ s.cfg.aw → s.slen < 2 ^ s.cfg.aw → s.dcap < 2 ^ s.cfg.aw →
    (¬ (2 ^ s.cfg.aw - 16 < s.slen ∧ s.slen % 16 ≠ 0) →
      exec .esize s = .next { s with status := 0, result := encryptedSize s.slen } ∧
      encryptedSize s.slen < 2 ^ s.cfg.aw) ∧
    (2 ^ s.cfg.aw - 16 < s.slen ∧ s.slen % 16 ≠ 0 →
      exec .esize s = .refused .paddedSizeTooLarge ∧
      exec .pad s = .next { s with status := 3, result := 0 } ∧
      (KeyLengthOk s → ∃ t, exec .enc s = .next t ∧ RaisedAndCleared s t 3))

/-- 43_padding.md R154: exactness and ambiguity of padding removal. -/
def Obligations.RecoveredLengthIsExactOrAmbiguous : Prop :=
  ∀ m : List Byte, 1 ≤ m.length →
    (m.length % 16 ≠ 0 → recoveredLength (padInsert m) = m.length) ∧
    (m.length % 16 = 0 → padInsert m = m ∧
      (recoveredLength m = m.length ↔ ∀ v, ¬ LooksPadded m v) ∧
      ∀ v, LooksPadded m v → recoveredLength m = m.length - v)

/-- 43_padding.md R160 ("only the final 16 bytes can matter"), 20_memory.md R66: two strings of equal legal length with the same last 16 bytes
have the same recovered length. -/
def Obligations.OnlyTheFinalBlockDecidesTheLength : Prop :=
  ∀ p q : List Byte, p.length = q.length → 16 ≤ p.length →
    p.drop (p.length - 16) = q.drop (q.length - 16) → recoveredLength p = recoveredLength q

/-- 43_padding.md R157 with R152: `PAD` copies the message and appends the count bytes, whether or not the buffers overlap
(20_memory.md R60), and changes nothing else; a capacity below the padded size raises BufferTooSmall. -/
def Obligations.PadWritesTheMessageAndItsPadding : Prop :=
  encode .pad = 0x07 ∧
  (∀ s : State, s.mem.wf → encryptedSize s.slen ≤ s.dcap → Fits s.cfg s.src s.slen →
    Fits s.cfg s.dst (encryptedSize s.slen) →
    ∃ t, exec .pad s = .next t ∧ t.status = 0 ∧ t.result = encryptedSize s.slen ∧
      (∀ j, j < s.slen → t.readByte (s.dst + j) = s.readByte (s.src + j)) ∧
      (∀ j, s.slen ≤ j → j < encryptedSize s.slen →
        (t.readByte (s.dst + j)).toNat = encryptedSize s.slen - s.slen) ∧
      SameMemoryOutside s t s.dst (encryptedSize s.slen) ∧
      OperandsKept s t ∧ SameSchedule s t ∧ t.blk = s.blk) ∧
  ∀ s : State, s.dcap < encryptedSize s.slen → exec .pad s = .next { s with status := 3, result := 0 }

/-- 43_padding.md R160 with R153: `UNPAD` reports the recovered length of the source buffer and writes nothing but `STATUS` and
`RESULT`; a length that is 0 or no multiple of 16 raises InvalidCiphertextLength. -/
def Obligations.UnpadReportsTheRecoveredLength : Prop :=
  encode .unpad = 0x08 ∧
  (∀ s : State, CiphertextLengthOk s → Fits s.cfg s.src s.slen →
    ∃ n, exec .unpad s = .next { s with status := 0, result := n } ∧
      (∀ v, LooksPadded (s.memRead s.src s.slen) v → n = s.slen - v) ∧
      ((∀ v, ¬ LooksPadded (s.memRead s.src s.slen) v) → n = s.slen) ∧
      n ≤ s.slen ∧ s.slen - n ≤ 16) ∧
  ∀ s : State, ¬ CiphertextLengthOk s → exec .unpad s = .next { s with status := 2, result := 0 }

/-! ### ChainingEngine, `ENC`, `DEC` -/

/-- 44_chaining.md R172 with R166, R168, R170: `ENC` writes the blocks of the chained encryption of the padded message, block `i` read from the
memory it leaves, and nothing outside `[DST, DST + need)`; it clears the schedule store on every outcome; errors in the order key
length, capacity. Overlapping buffers are not excluded (20_memory.md R60). -/
def Obligations.EncWritesTheChainedCiphertext : Prop :=
  encode .enc = 0x02 ∧
  (∀ s : State, s.mem.wf → KeyLengthOk s → encryptedSize s.slen ≤ s.dcap → Fits s.cfg s.src s.slen →
    Fits s.cfg s.dst (encryptedSize s.slen) →
    ∃ t, exec .enc s = .next t ∧ t.status = 0 ∧ t.result = encryptedSize s.slen ∧
      (∀ i, i < encryptedSize s.slen / 16 →
        t.readBlock (s.dst + 16 * i) =
          encryptBlock (roundKeys s.keyBytes) (sBoxes s.keyBytes)
            (xorBlock (blockOf ((padInsert (s.memRead s.src s.slen)).drop (16 * i)))
              (if i = 0 then s.iv else t.readBlock (s.dst + 16 * (i - 1))))) ∧
      SameMemoryOutside s t s.dst (encryptedSize s.slen) ∧
      ScheduleCleared t ∧ OperandsKept s t ∧ t.blk = s.blk) ∧
  (∀ s : State, ¬ KeyLengthOk s → ∃ t, exec .enc s = .next t ∧ RaisedAndCleared s t 1) ∧
  ∀ s : State, KeyLengthOk s → s.dcap < encryptedSize s.slen →
    ∃ t, exec .enc s = .next t ∧ RaisedAndCleared s t 3

/-- 44_chaining.md R174 with R167, R169, R171, R175: `DEC` writes block `i` of the chained decryption, a function of the ciphertext blocks `i` and
`i - 1` the source held before, all `SLEN` bytes and nothing outside them; `RESULT` is the recovered length of what it wrote; it clears the
schedule store on every outcome; errors in the order ciphertext length, key length, capacity. -/
def Obligations.DecWritesTheChainedPlaintext : Prop :=
  encode .dec = 0x03 ∧
  (∀ s : State, s.mem.wf → CiphertextLengthOk s → KeyLengthOk s → s.slen ≤ s.dcap → Fits s.cfg s.src s.slen →
    Fits s.cfg s.dst s.slen →
    ∃ t, exec .dec s = .next t ∧ t.status = 0 ∧ t.result = recoveredLength (t.memRead s.dst s.slen) ∧
      (∀ i, i < s.slen / 16 →
        t.readBlock (s.dst + 16 * i) =
          xorBlock (decryptBlock (roundKeys s.keyBytes) (sBoxes s.keyBytes) (s.readBlock (s.src + 16 * i)))
            (if i = 0 then s.iv else s.readBlock (s.src + 16 * (i - 1)))) ∧
      SameMemoryOutside s t s.dst s.slen ∧ ScheduleCleared t ∧ OperandsKept s t ∧ t.blk = s.blk) ∧
  (∀ s : State, ¬ CiphertextLengthOk s → ∃ t, exec .dec s = .next t ∧ RaisedAndCleared s t 2) ∧
  (∀ s : State, CiphertextLengthOk s → ¬ KeyLengthOk s → ∃ t, exec .dec s = .next t ∧ RaisedAndCleared s t 1) ∧
  ∀ s : State, CiphertextLengthOk s → KeyLengthOk s → s.dcap < s.slen →
    ∃ t, exec .dec s = .next t ∧ RaisedAndCleared s t 3

/-- 44_chaining.md R167: "`CbcDecrypt(K, SB, iv, CbcEncrypt(K, SB, iv, p)) = p` for every `p`" of `16*b` bytes. -/
def Obligations.CbcDecryptInvertsCbcEncrypt : Prop :=
  ∀ (k : RoundKeys) (sb : SBoxes) (iv : Block) (p : List Byte), p.length % 16 = 0 →
    cbcDecrypt k sb iv (cbcEncrypt k sb iv p) = p ∧ (cbcEncrypt k sb iv p).length = p.length

/-- 44_chaining.md R177: the round trip of a message of at least one byte, and exactly when it returns the message. -/
def Obligations.MessageRoundTrip : Prop :=
  ∀ (key : List Byte) (iv : Block) (pt : List Byte), key.length = 16 ∨ key.length = 24 ∨ key.length = 32 →
    1 ≤ pt.length →
    decryptMessage (encryptMessage pt key iv) key iv = padInsert pt ∧
    (encryptMessage pt key iv).length = encryptedSize pt.length ∧
    ((recoveredLength (padInsert pt) = pt.length ∧
        (padInsert pt).take (recoveredLength (padInsert pt)) = pt) ↔
      (pt.length % 16 ≠ 0 ∨ ∀ v, ¬ LooksPadded pt v))

/-- 44_chaining.md R179, the round trip in hardware: after a successful `ENC` of at least one block, `DEC` of its output with the same key and
IV succeeds, writes the padded message and reports its recovered length, the message's own length if that is no multiple of 16. -/
def Obligations.EncThenDecRecoversTheMessage : Prop :=
  ∀ (s t : State) (d c : Nat), s.mem.wf → exec .enc s = .next t → t.status = 0 → 16 ≤ t.result →
    t.result ≤ c → Fits s.cfg d t.result →
    ∃ u, exec .dec { t with src := s.dst, slen := t.result, dst := d, dcap := c } = .next u ∧ u.status = 0 ∧
      u.memRead d t.result = padInsert (s.memRead s.src s.slen) ∧
      u.result = recoveredLength (padInsert (s.memRead s.src s.slen)) ∧
      (s.slen % 16 ≠ 0 → u.result = s.slen)

/-- 44_chaining.md R168, 30_encoding.md R84, R85: the pseudo-instruction `encrypt`, run from any state with the invariant, reports status 0 and the padded
size, and leaves the ciphertext of `Encrypt(pt, key, iv)` at `out`, whatever the operand registers held before. The list of pending
primitives and the replies are the model's own (log 5, log 6). -/
def Obligations.EncryptPseudoInstructionEncrypts : Prop :=
  ∀ (s : State) (a n d c : Nat) (key iv : List Byte), s.Inv → s.host = [] →
    key.length = 16 ∨ key.length = 24 ∨ key.length = 32 → iv.length = 16 →
    a < 2 ^ s.cfg.aw → n < 2 ^ s.cfg.aw → d < 2 ^ s.cfg.aw → c < 2 ^ s.cfg.aw → encryptedSize n ≤ c →
    Fits s.cfg a n → Fits s.cfg d (encryptedSize n) →
    ∃ t, Host.Core.run core (progEncrypt a n key iv d c).length { s with host := progEncrypt a n key iv d c } = .next t ∧
      t.host = [] ∧ t.replies = s.replies ++ [0, encryptedSize n] ∧
      t.memRead d (encryptedSize n) = encryptMessage (s.memRead a n) key (blockOf iv) ∧
      SameMemoryOutside s t d (encryptedSize n)

/-! ### Rules about all commands -/

/-- 60_exceptions.md R204 with R196: the status a command reports is that of the first check that fails in its own order, 0 if none does. -/
def Obligations.StatusIsTheFirstFailingCheck : Prop :=
  ∀ (i : Instr) (s t : State), exec i s = .next t →
    t.status =
      match i with
      | .esize => 0
      | .enc => if ¬ KeyLengthOk s then 1 else if s.dcap < encryptedSize s.slen then 3 else 0
      | .dec =>
        if ¬ CiphertextLengthOk s then 2 else if ¬ KeyLengthOk s then 1 else if s.dcap < s.slen then 3 else 0
      | .ks => if ¬ KeyLengthOk s then 1 else 0
      | .eblk => if s.sv = false then 4 else 0
      | .dblk => if s.sv = false then 4 else 0
      | .pad => if s.dcap < encryptedSize s.slen then 3 else 0
      | .unpad => if ¬ CiphertextLengthOk s then 2 else 0
      | .clr => 0

/-- 60_exceptions.md R201 (b) to (g): what a command that reports an error leaves. -/
def Obligations.ErrorsLeaveEverythingElse : Prop :=
  ∀ (i : Instr) (s t : State), exec i s = .next t → t.status ≠ 0 →
    t.result = 0 ∧ t.mem = s.mem ∧ t.blk = s.blk ∧ OperandsKept s t ∧
    (i = .ks ∨ i = .enc ∨ i = .dec → ScheduleCleared t) ∧
    (i ≠ .ks ∧ i ≠ .enc ∧ i ≠ .dec → SameSchedule s t)

/-- 10_state.md R26: what `RESULT` holds after each command. -/
def Obligations.ResultHoldsTheReportedLength : Prop :=
  ∀ (i : Instr) (s t : State), s.mem.wf → exec i s = .next t →
    (t.status ≠ 0 → t.result = 0) ∧
    (i = .ks ∨ i = .eblk ∨ i = .dblk ∨ i = .clr → t.result = 0) ∧
    (t.status = 0 → i = .esize ∨ i = .pad ∨ i = .enc → t.result = encryptedSize s.slen) ∧
    (t.status = 0 → i = .dec → t.result = recoveredLength (t.memRead s.dst s.slen) ∧ t.result ≤ s.slen) ∧
    (t.status = 0 → i = .unpad → t.result = recoveredLength (s.memRead s.src s.slen) ∧ t.result ≤ s.slen)

/-- 70_reset_and_hazards.md R228: after `ENC` or `DEC`, whatever its status, the cached schedule is gone and a block command raises NoSchedule. -/
def Obligations.MessageCommandsDropTheSchedule : Prop :=
  ∀ (i : Instr) (s t : State), i = .enc ∨ i = .dec → exec i s = .next t →
    ScheduleCleared t ∧ t.sv = false ∧
    exec .eblk t = .next { t with status := 4, result := 0 } ∧
    exec .dblk t = .next { t with status := 4, result := 0 }

/-- 70_reset_and_hazards.md R229: a host write to `KEY` or `KLEN` changes neither the schedule store nor what `EBLK` and `DBLK` compute. -/
def Obligations.CachedScheduleDoesNotFollowTheKey : Prop :=
  ∀ (s : State) (r : Reg) (i v : Nat), r = .KEY ∨ r = .KLEN → i < r.elements →
    ∃ t, hostWrite r i v s = .next t ∧ SameSchedule s t ∧
      ∀ j : Instr, j = .eblk ∨ j = .dblk →
        ∃ u w, exec j s = .next u ∧ exec j t = .next w ∧ w.blk = u.blk ∧ w.status = u.status

/-- 10_state.md R42: "No command changes `CMD`, `SRC`, `SLEN`, `DST` or `DCAP`, and only `CLR` changes `KLEN`, `KEY` or `IV`". -/
def Obligations.OnlyClrChangesOperandRegisters : Prop :=
  ∀ (i : Instr) (s t : State), exec i s = .next t →
    t.cmd = s.cmd ∧ t.src = s.src ∧ t.slen = s.slen ∧ t.dst = s.dst ∧ t.dcap = s.dcap ∧
    (i ≠ .clr → t.klen = s.klen ∧ t.key = s.key ∧ t.iv = s.iv)

/-- 10_state.md R41, the columns of what a command writes, and R32: which commands change `BLK`, the schedule store and `MEM`, and that none
touches the model's own fields. -/
def Obligations.CommandsWriteOnlyWhatTheTableSays : Prop :=
  ∀ (i : Instr) (s t : State), exec i s = .next t →
    (i ≠ .eblk → i ≠ .dblk → i ≠ .clr → t.blk = s.blk) ∧
    (i ≠ .ks → i ≠ .enc → i ≠ .dec → i ≠ .clr → SameSchedule s t) ∧
    (i ≠ .enc → i ≠ .dec → i ≠ .pad → t.mem = s.mem) ∧
    t.cfg = s.cfg ∧ t.memEpoch = s.memEpoch ∧ t.host = s.host ∧ t.replies = s.replies

/-- 20_memory.md R67, 10_state.md R29: a command writes exactly its destination range, never past the stated capacity, and no byte on an error. -/
def Obligations.WritesStayInTheDestinationRange : Prop :=
  ∀ (i : Instr) (s t : State), s.mem.wf → exec i s = .next t →
    (i = .enc ∨ i = .pad → SameMemoryOutside s t s.dst (encryptedSize s.slen)) ∧
    (i = .dec → SameMemoryOutside s t s.dst s.slen) ∧
    (i ≠ .enc → i ≠ .pad → i ≠ .dec → SameMemory s t) ∧
    SameMemoryOutside s t s.dst s.dcap ∧
    (t.status ≠ 0 → SameMemory s t)

/-- 45_control.md R186: `CLR` always completes; the state it leaves differs from the reset state (of the same instance and host) only in
`CMD`, `SRC`, `SLEN`, `DST`, `DCAP` and `MEM`; and "`CLR` twice is the same as once". -/
def Obligations.ClrErasesKeyMaterial : Prop :=
  encode .clr = 0x09 ∧
  ∀ s : State, ∃ t, exec .clr s = .next t ∧
    t = { State.reset with
      cmd := s.cmd, src := s.src, slen := s.slen, dst := s.dst, dcap := s.dcap, mem := s.mem,
      cfg := s.cfg, memEpoch := s.memEpoch, host := s.host, replies := s.replies } ∧
    exec .clr t = .next t

/-- 45_control.md R189: "every issued command has exactly one outcome (or is refused by name ... U2 to U4)": no command faults, the
only refusals are those of `ESIZE` (43_padding.md R156, U2) and of the ranges (20_memory.md R56, U3, R59, U4), each only where the spec gives
no meaning; and conversely, there the command is refused. That the range looked at is that of the bytes needed for
unpopulated addresses too, and only after the command's checks, is the model's choice (log 14, log 15). -/
def Obligations.EveryCommandHasAnOutcome : Prop :=
  (∀ (i : Instr) (s : State),
    (∃ t, exec i s = .next t) ∨
    (i = .esize ∧ exec i s = .refused .paddedSizeTooLarge ∧ 2 ^ s.cfg.aw ≤ encryptedSize s.slen) ∨
    (RefusedForRange (exec i s) ∧
      ((i = .enc ∨ i = .pad) ∧ (¬ Fits s.cfg s.src s.slen ∨ ¬ Fits s.cfg s.dst (encryptedSize s.slen)) ∨
        i = .dec ∧ (¬ Fits s.cfg s.src s.slen ∨ ¬ Fits s.cfg s.dst s.slen) ∨
        i = .unpad ∧ ¬ Fits s.cfg s.src s.slen))) ∧
  ∀ s : State,
    (2 ^ s.cfg.aw ≤ encryptedSize s.slen → exec .esize s = .refused .paddedSizeTooLarge) ∧
    (encryptedSize s.slen ≤ s.dcap → ¬ Fits s.cfg s.src s.slen ∨ ¬ Fits s.cfg s.dst (encryptedSize s.slen) →
      RefusedForRange (exec .pad s) ∧ (KeyLengthOk s → RefusedForRange (exec .enc s))) ∧
    (CiphertextLengthOk s → KeyLengthOk s → s.slen ≤ s.dcap →
      ¬ Fits s.cfg s.src s.slen ∨ ¬ Fits s.cfg s.dst s.slen → RefusedForRange (exec .dec s)) ∧
    (CiphertextLengthOk s → ¬ Fits s.cfg s.src s.slen → RefusedForRange (exec .unpad s))

/-- 10_state.md R41, the columns of what a command reads, and 00_scope.md R18: the outcome of `ENC` and `DEC` depends on the operand
registers, the key bytes below `KLEN` and the source bytes alone, that of `PAD` on `SRC`, `SLEN`, `DST`, `DCAP` and the source bytes, that of
`UNPAD` on `SRC`, `SLEN` and the source bytes, whatever else the two states of one instance hold. -/
def Obligations.BufferCommandsReadOnlyTheirOperands : Prop :=
  ∀ (i : Instr) (s s' t : State), i = .enc ∨ i = .dec ∨ i = .pad ∨ i = .unpad → s.mem.wf → s'.mem.wf →
    s'.cfg = s.cfg → s'.src = s.src → s'.slen = s.slen →
    (i ≠ .unpad → s'.dst = s.dst ∧ s'.dcap = s.dcap) →
    (i = .enc ∨ i = .dec → s'.klen = s.klen ∧ s'.iv = s.iv ∧ s'.keyBytes = s.keyBytes) →
    (∀ a, s.src ≤ a → a < s.src + s.slen → s'.readByte a = s.readByte a) →
    exec i s = .next t →
    ∃ t', exec i s' = .next t' ∧ t'.status = t.status ∧ t'.result = t.result ∧
      (t.status = 0 → i ≠ .unpad →
        ∀ a, s.dst ≤ a → a < s.dst + (if i = .dec then s.slen else encryptedSize s.slen) →
          t'.readByte a = t.readByte a)
end

