-- ==== Sys2Proof/Laws/Operands.lean ====
section
/-! SUPPORT. Bytes, words and blocks: each conversion and its inverse, element by element. -/

namespace Sys2Proof.Machine

@[simp] theorem tabulate_getElem {α : Type} (n : Nat) (f : Nat → α) (i : Nat) (h : i < n) :
    (tabulate n f)[i] = f i := by
  simp [tabulate]

@[simp] theorem tabulate_toList {α : Type} (n : Nat) (f : Nat → α) : (tabulate n f).toList = (List.range n).map f := by
  simp [tabulate]

/-! ### Words and bytes -/

theorem byteOf_le32 (b0 b1 b2 b3 : Byte) :
    byteOf (le32 b0 b1 b2 b3) 0 = b0 ∧ byteOf (le32 b0 b1 b2 b3) 1 = b1 ∧
    byteOf (le32 b0 b1 b2 b3) 2 = b2 ∧ byteOf (le32 b0 b1 b2 b3) 3 = b3 := by
  refine ⟨?_, ?_, ?_, ?_⟩ <;> ext i hi <;>
    simp only [byteOf, le32, BitVec.getElem_extractLsb', BitVec.getLsbD_append] <;>
    interval_cases i <;> simp

theorem le32_byteOf (w : Word) : le32 (byteOf w 0) (byteOf w 1) (byteOf w 2) (byteOf w 3) = w := by
  apply BitVec.eq_of_getLsbD_eq
  intro i hi
  simp only [byteOf, le32, BitVec.getLsbD_append, BitVec.getLsbD_extractLsb']
  interval_cases i <;> simp

/-- Each byte of `n * 0x01010101` is `n` (41_keyschedule.md R119). -/
theorem byteOf_repeated (b : Byte) (j : Nat) (h : j < 4) :
    byteOf (BitVec.ofNat 32 b.toNat * 0x01010101) j = b := by
  have : ∀ b : Byte, ∀ j : Fin 4, byteOf (BitVec.ofNat 32 b.toNat * 0x01010101) j.val = b := by decide +kernel
  exact this b ⟨j, h⟩

/-! ### Rotations -/

theorem rol32_ror32 (w : Word) : rol32 (ror32 w 1) 1 = w := by
  ext i hi
  simp only [rol32, ror32, BitVec.rotateLeft_eq_rotateLeftAux_of_lt (show 1 < 32 by omega),
    BitVec.rotateLeft_eq_rotateLeftAux_of_lt (show 32 - 1 < 32 by omega), BitVec.rotateLeftAux]
  interval_cases i <;> simp

theorem ror32_rol32 (w : Word) : ror32 (rol32 w 1) 1 = w := by
  ext i hi
  simp only [rol32, ror32, BitVec.rotateLeft_eq_rotateLeftAux_of_lt (show 1 < 32 by omega),
    BitVec.rotateLeft_eq_rotateLeftAux_of_lt (show 32 - 1 < 32 by omega), BitVec.rotateLeftAux]
  interval_cases i <;> simp

/-! ### Blocks and words -/

theorem blockWords_wordsBlock (q : Quad) : blockWords (wordsBlock q) = q := by
  cases q
  simp [blockWords, wordsBlock, bytes32, le32_byteOf]

theorem wordsBlock_blockWords (b : Block) : wordsBlock (blockWords b) = b := by
  ext i hi
  interval_cases i <;> simp [wordsBlock, blockWords, bytes32, byteOf_le32]

/-! ### Byte-wise exclusive or -/

@[simp] theorem xorBlock_getElem (a b : Block) (i : Nat) (h : i < 16) : (xorBlock a b)[i] = a[i] ^^^ b[i] := by
  simp [xorBlock]

theorem xorBlock_cancel (a b : Block) : xorBlock (xorBlock a b) b = a := by
  ext i hi
  simp

end Sys2Proof.Machine
end

