-- ==== Sys2Proof/Laws/Padding.lean ====
section
/-! SUPPORT. What the padding functions answer (43_padding.md), each said once. -/

namespace Sys2Proof.Machine

theorem le_encryptedSize (n : Nat) : n ≤ encryptedSize n := by
  unfold encryptedSize
  split <;> omega

theorem encryptedSize_mod (n : Nat) : encryptedSize n % 16 = 0 := by
  unfold encryptedSize
  split <;> omega

theorem encryptedSize_of_aligned {n : Nat} (h : n % 16 = 0) : encryptedSize n = n := by simp [encryptedSize, h]

theorem encryptedSize_of_unaligned {n : Nat} (h : n % 16 ≠ 0) : encryptedSize n = n + (16 - n % 16) := by
  simp [encryptedSize, h]

@[simp] theorem length_padInsert (m : List Byte) : (padInsert m).length = encryptedSize m.length := by
  have := le_encryptedSize m.length
  simp [padInsert]
  omega

/-- The message stands first in its padded form. -/
theorem padInsert_getD_message (m : List Byte) {j : Nat} (h : j < m.length) : (padInsert m).getD j 0 = m.getD j 0 := by
  simp only [padInsert]
  rw [List.getD_eq_getElem?_getD, List.getElem?_append_left h]
  rfl

/-- The count bytes stand after it. -/
theorem padInsert_getD_count (m : List Byte) {j : Nat} (h1 : m.length ≤ j) (h2 : j < encryptedSize m.length) :
    (padInsert m).getD j 0 = BitVec.ofNat 8 (encryptedSize m.length - m.length) := by
  simp only [padInsert]
  rw [List.getD_eq_getElem?_getD, List.getElem?_append_right h1, List.getElem?_replicate, if_pos (by omega)]
  rfl

/-- A buffer that looks padded with `v` loses `v` bytes (R153). -/
theorem recoveredLength_of_looksPadded {p : List Byte} {v : Nat} (h : LooksPadded p v) :
    recoveredLength p = p.length - v := by
  obtain ⟨h1, h2, h3, h4⟩ := h
  unfold recoveredLength
  rw [if_pos]
  · simp only [h1]
  · simp only [Bool.and_eq_true, decide_eq_true_eq, List.all_eq_true, List.mem_range, beq_iff_eq, h1]
    refine ⟨⟨h2, h3⟩, fun j hj => BitVec.eq_of_toNat_eq ?_⟩
    rw [h1, h4 (j + 1) (by omega) (by omega)]

/-- Any other buffer keeps its length (R153). -/
theorem recoveredLength_of_not_looksPadded {p : List Byte} (h : ∀ v, ¬ LooksPadded p v) :
    recoveredLength p = p.length := by
  unfold recoveredLength
  rw [if_neg]
  simp only [Bool.and_eq_true, decide_eq_true_eq, List.all_eq_true, List.mem_range, beq_iff_eq]
  rintro ⟨⟨h1, h2⟩, h3⟩
  refine h _ ⟨rfl, h1, h2, fun j hj1 hj2 => ?_⟩
  have := h3 (j - 1) (by omega)
  rw [show j - 1 + 1 = j by omega] at this
  rw [this]

/-- The two cases of R153, for every buffer. -/
theorem recoveredLength_cases (p : List Byte) :
    (∃ v, LooksPadded p v ∧ recoveredLength p = p.length - v) ∨
    ((∀ v, ¬ LooksPadded p v) ∧ recoveredLength p = p.length) := by
  by_cases h : ∃ v, LooksPadded p v
  · obtain ⟨v, hv⟩ := h
    exact .inl ⟨v, hv, recoveredLength_of_looksPadded hv⟩
  · have h' : ∀ v, ¬ LooksPadded p v := fun v hv => h ⟨v, hv⟩
    exact .inr ⟨h', recoveredLength_of_not_looksPadded h'⟩

theorem recoveredLength_le (p : List Byte) : recoveredLength p ≤ p.length := by
  rcases recoveredLength_cases p with ⟨v, -, h⟩ | ⟨-, h⟩ <;> omega

end Sys2Proof.Machine
end

