-- ==== Sys2Proof/Laws/Chaining.lean ====
section
/-! SUPPORT. Cutting byte strings into blocks and back, and the lengths of the chained functions (44_chaining.md R165 to R169). -/

namespace Sys2Proof.Machine

@[simp] theorem blockOf_getElem (s : List Byte) (i : Nat) (h : i < 16) : (blockOf s)[i] = s.getD i 0 := by
  simp [blockOf]

theorem blockOf_toList {p : List Byte} (h : 16 ≤ p.length) : (blockOf p).toList = p.take 16 := by
  apply List.ext_getElem
  · simp [h]
  · intro n h1 h2
    have h3 : n < p.length := by simp at h2; omega
    simp [h3]

theorem blockOf_append (c : Block) (l : List Byte) : blockOf (c.toList ++ l) = c := by
  apply Vector.ext
  intro i hi
  rw [blockOf_getElem _ _ hi, List.getD_eq_getElem?_getD, List.getElem?_append_left (by simpa using hi)]
  simp [hi]

@[simp] theorem toBlocks_length (b : Nat) (p : List Byte) : (toBlocks b p).length = b := by
  induction b generalizing p <;> simp [toBlocks, *]

@[simp] theorem fromBlocks_nil : fromBlocks [] = [] := rfl

@[simp] theorem fromBlocks_cons (b : Block) (bs : List Block) : fromBlocks (b :: bs) = b.toList ++ fromBlocks bs := rfl

@[simp] theorem fromBlocks_length (bs : List Block) : (fromBlocks bs).length = 16 * bs.length := by
  induction bs with
  | nil => rfl
  | cons b bs ih => simp [ih]; omega

theorem fromBlocks_toBlocks {b : Nat} {p : List Byte} (h : p.length = 16 * b) : fromBlocks (toBlocks b p) = p := by
  induction b generalizing p with
  | zero => exact (List.eq_nil_of_length_eq_zero h).symm
  | succ b ih =>
    rw [toBlocks, fromBlocks_cons, ih (by simp; omega), blockOf_toList (by omega), List.take_append_drop]

theorem toBlocks_fromBlocks (bs : List Block) : toBlocks bs.length (fromBlocks bs) = bs := by
  induction bs with
  | nil => rfl
  | cons b bs ih =>
    rw [List.length_cons, toBlocks, fromBlocks_cons, blockOf_append, List.drop_append_of_le_length (by simp),
      List.drop_eq_nil_of_le (by simp), List.nil_append, ih]

/-- Block `i` of a byte string (R165). -/
theorem toBlocks_getElem (b : Nat) (p : List Byte) (i : Nat) (h : i < (toBlocks b p).length) :
    (toBlocks b p)[i] = blockOf (p.drop (16 * i)) := by
  induction b generalizing p i with
  | zero => simp at h
  | succ b ih =>
    cases i with
    | zero => simp [toBlocks]
    | succ i =>
      simp only [toBlocks, List.getElem_cons_succ]
      rw [ih, List.drop_drop, show 16 + 16 * i = 16 * (i + 1) by omega]

/-- Block `i` of a list of blocks laid out as bytes. -/
theorem blockOf_fromBlocks (bs : List Block) (i : Nat) (h : i < bs.length) :
    blockOf ((fromBlocks bs).drop (16 * i)) = bs[i] := by
  have := toBlocks_getElem bs.length (fromBlocks bs) i (by simpa using h)
  simp only [toBlocks_fromBlocks] at this
  exact this.symm

@[simp] theorem cbcEncryptBlocks_length (k : RoundKeys) (sb : SBoxes) (prev : Block) (bs : List Block) :
    (cbcEncryptBlocks k sb prev bs).length = bs.length := by
  induction bs generalizing prev <;> simp [cbcEncryptBlocks, *]

@[simp] theorem cbcDecryptBlocks_length (k : RoundKeys) (sb : SBoxes) (prev : Block) (bs : List Block) :
    (cbcDecryptBlocks k sb prev bs).length = bs.length := by
  induction bs generalizing prev <;> simp [cbcDecryptBlocks, *]

/-- The recurrence of `CbcEncrypt` (R166): block `i` is the encryption of the plaintext block combined with the ciphertext
block before, or with the IV. -/
theorem cbcEncryptBlocks_getElem (k : RoundKeys) (sb : SBoxes) (prev : Block) (bs : List Block) (i : Nat)
    (h : i < bs.length) :
    (cbcEncryptBlocks k sb prev bs)[i]'(by simpa using h) =
      encryptBlock k sb (xorBlock bs[i]
        (if _h0 : i = 0 then prev else (cbcEncryptBlocks k sb prev bs)[i - 1]'(by simp; omega))) := by
  induction bs generalizing prev i with
  | nil => simp at h
  | cons b bs ih =>
    cases i with
    | zero => simp [cbcEncryptBlocks]
    | succ i =>
      simp only [cbcEncryptBlocks, List.getElem_cons_succ, Nat.add_sub_cancel]
      rw [ih _ i (by simpa using h)]
      cases i <;> simp

/-- The recurrence of `CbcDecrypt` (R167). -/
theorem cbcDecryptBlocks_getElem (k : RoundKeys) (sb : SBoxes) (prev : Block) (bs : List Block) (i : Nat)
    (h : i < bs.length) :
    (cbcDecryptBlocks k sb prev bs)[i]'(by simpa using h) =
      xorBlock (decryptBlock k sb bs[i]) (if _h0 : i = 0 then prev else bs[i - 1]'(by omega)) := by
  induction bs generalizing prev i with
  | nil => simp at h
  | cons b bs ih =>
    cases i with
    | zero => simp [cbcDecryptBlocks]
    | succ i =>
      simp only [cbcDecryptBlocks, List.getElem_cons_succ, Nat.add_sub_cancel]
      rw [ih _ i (by simpa using h)]
      cases i <;> simp

@[simp] theorem length_encryptMessage (pt key : List Byte) (iv : Block) :
    (encryptMessage pt key iv).length = encryptedSize pt.length := by
  have := encryptedSize_mod pt.length
  simp [encryptMessage, cbcEncrypt]
  omega

theorem length_decryptMessage (ct key : List Byte) (iv : Block) (h : ct.length % 16 = 0) :
    (decryptMessage ct key iv).length = ct.length := by
  simp [decryptMessage, cbcDecrypt]
  omega

end Sys2Proof.Machine
end

