-- ==== Sys2Proof/Laws/State.lean ====
section
/-! SUPPORT. One lemma per field per update of State, so that no later proof unfolds a record update. -/

namespace Sys2Proof.Machine

variable (s : State)

/-! ### finish -/

@[simp] theorem State.finish_cmd (r : Nat) : (s.finish r).cmd = s.cmd := rfl
@[simp] theorem State.finish_status (r : Nat) : (s.finish r).status = statusOk := rfl
@[simp] theorem State.finish_sstat (r : Nat) : (s.finish r).sstat = s.sstat := rfl
@[simp] theorem State.finish_klen (r : Nat) : (s.finish r).klen = s.klen := rfl
@[simp] theorem State.finish_result (r : Nat) : (s.finish r).result = r := rfl
@[simp] theorem State.finish_src (r : Nat) : (s.finish r).src = s.src := rfl
@[simp] theorem State.finish_slen (r : Nat) : (s.finish r).slen = s.slen := rfl
@[simp] theorem State.finish_dst (r : Nat) : (s.finish r).dst = s.dst := rfl
@[simp] theorem State.finish_dcap (r : Nat) : (s.finish r).dcap = s.dcap := rfl
@[simp] theorem State.finish_key (r : Nat) : (s.finish r).key = s.key := rfl
@[simp] theorem State.finish_iv (r : Nat) : (s.finish r).iv = s.iv := rfl
@[simp] theorem State.finish_blk (r : Nat) : (s.finish r).blk = s.blk := rfl
@[simp] theorem State.finish_k (r : Nat) : (s.finish r).k = s.k := rfl
@[simp] theorem State.finish_sb (r : Nat) : (s.finish r).sb = s.sb := rfl
@[simp] theorem State.finish_mem (r : Nat) : (s.finish r).mem = s.mem := rfl
@[simp] theorem State.finish_cfg (r : Nat) : (s.finish r).cfg = s.cfg := rfl
@[simp] theorem State.finish_memEpoch (r : Nat) : (s.finish r).memEpoch = s.memEpoch := rfl
@[simp] theorem State.finish_host (r : Nat) : (s.finish r).host = s.host := rfl
@[simp] theorem State.finish_replies (r : Nat) : (s.finish r).replies = s.replies := rfl

/-! ### raise -/

@[simp] theorem State.raise_cmd (e : CmdError) : (s.raise e).cmd = s.cmd := rfl
@[simp] theorem State.raise_status (e : CmdError) : (s.raise e).status = e.code := rfl
@[simp] theorem State.raise_sstat (e : CmdError) : (s.raise e).sstat = s.sstat := rfl
@[simp] theorem State.raise_klen (e : CmdError) : (s.raise e).klen = s.klen := rfl
@[simp] theorem State.raise_result (e : CmdError) : (s.raise e).result = 0 := rfl
@[simp] theorem State.raise_src (e : CmdError) : (s.raise e).src = s.src := rfl
@[simp] theorem State.raise_slen (e : CmdError) : (s.raise e).slen = s.slen := rfl
@[simp] theorem State.raise_dst (e : CmdError) : (s.raise e).dst = s.dst := rfl
@[simp] theorem State.raise_dcap (e : CmdError) : (s.raise e).dcap = s.dcap := rfl
@[simp] theorem State.raise_key (e : CmdError) : (s.raise e).key = s.key := rfl
@[simp] theorem State.raise_iv (e : CmdError) : (s.raise e).iv = s.iv := rfl
@[simp] theorem State.raise_blk (e : CmdError) : (s.raise e).blk = s.blk := rfl
@[simp] theorem State.raise_k (e : CmdError) : (s.raise e).k = s.k := rfl
@[simp] theorem State.raise_sb (e : CmdError) : (s.raise e).sb = s.sb := rfl
@[simp] theorem State.raise_mem (e : CmdError) : (s.raise e).mem = s.mem := rfl
@[simp] theorem State.raise_cfg (e : CmdError) : (s.raise e).cfg = s.cfg := rfl
@[simp] theorem State.raise_memEpoch (e : CmdError) : (s.raise e).memEpoch = s.memEpoch := rfl
@[simp] theorem State.raise_host (e : CmdError) : (s.raise e).host = s.host := rfl
@[simp] theorem State.raise_replies (e : CmdError) : (s.raise e).replies = s.replies := rfl

/-! ### clearSchedule -/

@[simp] theorem State.clearSchedule_cmd : (s.clearSchedule).cmd = s.cmd := rfl
@[simp] theorem State.clearSchedule_status : (s.clearSchedule).status = s.status := rfl
@[simp] theorem State.clearSchedule_sstat : (s.clearSchedule).sstat = sstatInvalid := rfl
@[simp] theorem State.clearSchedule_klen : (s.clearSchedule).klen = s.klen := rfl
@[simp] theorem State.clearSchedule_result : (s.clearSchedule).result = s.result := rfl
@[simp] theorem State.clearSchedule_src : (s.clearSchedule).src = s.src := rfl
@[simp] theorem State.clearSchedule_slen : (s.clearSchedule).slen = s.slen := rfl
@[simp] theorem State.clearSchedule_dst : (s.clearSchedule).dst = s.dst := rfl
@[simp] theorem State.clearSchedule_dcap : (s.clearSchedule).dcap = s.dcap := rfl
@[simp] theorem State.clearSchedule_key : (s.clearSchedule).key = s.key := rfl
@[simp] theorem State.clearSchedule_iv : (s.clearSchedule).iv = s.iv := rfl
@[simp] theorem State.clearSchedule_blk : (s.clearSchedule).blk = s.blk := rfl
@[simp] theorem State.clearSchedule_k : (s.clearSchedule).k = Vector.replicate 40 0 := rfl
@[simp] theorem State.clearSchedule_sb : (s.clearSchedule).sb = Vector.replicate 4 (Vector.replicate 256 0) := rfl
@[simp] theorem State.clearSchedule_mem : (s.clearSchedule).mem = s.mem := rfl
@[simp] theorem State.clearSchedule_cfg : (s.clearSchedule).cfg = s.cfg := rfl
@[simp] theorem State.clearSchedule_memEpoch : (s.clearSchedule).memEpoch = s.memEpoch := rfl
@[simp] theorem State.clearSchedule_host : (s.clearSchedule).host = s.host := rfl
@[simp] theorem State.clearSchedule_replies : (s.clearSchedule).replies = s.replies := rfl

/-! ### keepSchedule -/

@[simp] theorem State.keepSchedule_cmd (k : RoundKeys) (sb : SBoxes) (n : Nat) : (s.keepSchedule k sb n).cmd = s.cmd := rfl
@[simp] theorem State.keepSchedule_status (k : RoundKeys) (sb : SBoxes) (n : Nat) : (s.keepSchedule k sb n).status = s.status := rfl
@[simp] theorem State.keepSchedule_sstat (k : RoundKeys) (sb : SBoxes) (n : Nat) : (s.keepSchedule k sb n).sstat = sstatValid n := rfl
@[simp] theorem State.keepSchedule_klen (k : RoundKeys) (sb : SBoxes) (n : Nat) : (s.keepSchedule k sb n).klen = s.klen := rfl
@[simp] theorem State.keepSchedule_result (k : RoundKeys) (sb : SBoxes) (n : Nat) : (s.keepSchedule k sb n).result = s.result := rfl
@[simp] theorem State.keepSchedule_src (k : RoundKeys) (sb : SBoxes) (n : Nat) : (s.keepSchedule k sb n).src = s.src := rfl
@[simp] theorem State.keepSchedule_slen (k : RoundKeys) (sb : SBoxes) (n : Nat) : (s.keepSchedule k sb n).slen = s.slen := rfl
@[simp] theorem State.keepSchedule_dst (k : RoundKeys) (sb : SBoxes) (n : Nat) : (s.keepSchedule k sb n).dst = s.dst := rfl
@[simp] theorem State.keepSchedule_dcap (k : RoundKeys) (sb : SBoxes) (n : Nat) : (s.keepSchedule k sb n).dcap = s.dcap := rfl
@[simp] theorem State.keepSchedule_key (k : RoundKeys) (sb : SBoxes) (n : Nat) : (s.keepSchedule k sb n).key = s.key := rfl
@[simp] theorem State.keepSchedule_iv (k : RoundKeys) (sb : SBoxes) (n : Nat) : (s.keepSchedule k sb n).iv = s.iv := rfl
@[simp] theorem State.keepSchedule_blk (k : RoundKeys) (sb : SBoxes) (n : Nat) : (s.keepSchedule k sb n).blk = s.blk := rfl
@[simp] theorem State.keepSchedule_k (k : RoundKeys) (sb : SBoxes) (n : Nat) : (s.keepSchedule k sb n).k = k := rfl
@[simp] theorem State.keepSchedule_sb (k : RoundKeys) (sb : SBoxes) (n : Nat) : (s.keepSchedule k sb n).sb = sb := rfl
@[simp] theorem State.keepSchedule_mem (k : RoundKeys) (sb : SBoxes) (n : Nat) : (s.keepSchedule k sb n).mem = s.mem := rfl
@[simp] theorem State.keepSchedule_cfg (k : RoundKeys) (sb : SBoxes) (n : Nat) : (s.keepSchedule k sb n).cfg = s.cfg := rfl
@[simp] theorem State.keepSchedule_memEpoch (k : RoundKeys) (sb : SBoxes) (n : Nat) : (s.keepSchedule k sb n).memEpoch = s.memEpoch := rfl
@[simp] theorem State.keepSchedule_host (k : RoundKeys) (sb : SBoxes) (n : Nat) : (s.keepSchedule k sb n).host = s.host := rfl
@[simp] theorem State.keepSchedule_replies (k : RoundKeys) (sb : SBoxes) (n : Nat) : (s.keepSchedule k sb n).replies = s.replies := rfl

/-! ### memWrite -/

@[simp] theorem State.memWrite_cmd (x : Nat) (v : List Byte) : (s.memWrite x v).cmd = s.cmd := rfl
@[simp] theorem State.memWrite_status (x : Nat) (v : List Byte) : (s.memWrite x v).status = s.status := rfl
@[simp] theorem State.memWrite_sstat (x : Nat) (v : List Byte) : (s.memWrite x v).sstat = s.sstat := rfl
@[simp] theorem State.memWrite_klen (x : Nat) (v : List Byte) : (s.memWrite x v).klen = s.klen := rfl
@[simp] theorem State.memWrite_result (x : Nat) (v : List Byte) : (s.memWrite x v).result = s.result := rfl
@[simp] theorem State.memWrite_src (x : Nat) (v : List Byte) : (s.memWrite x v).src = s.src := rfl
@[simp] theorem State.memWrite_slen (x : Nat) (v : List Byte) : (s.memWrite x v).slen = s.slen := rfl
@[simp] theorem State.memWrite_dst (x : Nat) (v : List Byte) : (s.memWrite x v).dst = s.dst := rfl
@[simp] theorem State.memWrite_dcap (x : Nat) (v : List Byte) : (s.memWrite x v).dcap = s.dcap := rfl
@[simp] theorem State.memWrite_key (x : Nat) (v : List Byte) : (s.memWrite x v).key = s.key := rfl
@[simp] theorem State.memWrite_iv (x : Nat) (v : List Byte) : (s.memWrite x v).iv = s.iv := rfl
@[simp] theorem State.memWrite_blk (x : Nat) (v : List Byte) : (s.memWrite x v).blk = s.blk := rfl
@[simp] theorem State.memWrite_k (x : Nat) (v : List Byte) : (s.memWrite x v).k = s.k := rfl
@[simp] theorem State.memWrite_sb (x : Nat) (v : List Byte) : (s.memWrite x v).sb = s.sb := rfl
@[simp] theorem State.memWrite_mem (x : Nat) (v : List Byte) : (s.memWrite x v).mem = s.mem.storeAll x v := rfl
@[simp] theorem State.memWrite_cfg (x : Nat) (v : List Byte) : (s.memWrite x v).cfg = s.cfg := rfl
@[simp] theorem State.memWrite_memEpoch (x : Nat) (v : List Byte) : (s.memWrite x v).memEpoch = s.memEpoch := rfl
@[simp] theorem State.memWrite_host (x : Nat) (v : List Byte) : (s.memWrite x v).host = s.host := rfl
@[simp] theorem State.memWrite_replies (x : Nat) (v : List Byte) : (s.memWrite x v).replies = s.replies := rfl

/-! ### reply -/

@[simp] theorem State.reply_cmd (v : Nat) : (s.reply v).cmd = s.cmd := rfl
@[simp] theorem State.reply_status (v : Nat) : (s.reply v).status = s.status := rfl
@[simp] theorem State.reply_sstat (v : Nat) : (s.reply v).sstat = s.sstat := rfl
@[simp] theorem State.reply_klen (v : Nat) : (s.reply v).klen = s.klen := rfl
@[simp] theorem State.reply_result (v : Nat) : (s.reply v).result = s.result := rfl
@[simp] theorem State.reply_src (v : Nat) : (s.reply v).src = s.src := rfl
@[simp] theorem State.reply_slen (v : Nat) : (s.reply v).slen = s.slen := rfl
@[simp] theorem State.reply_dst (v : Nat) : (s.reply v).dst = s.dst := rfl
@[simp] theorem State.reply_dcap (v : Nat) : (s.reply v).dcap = s.dcap := rfl
@[simp] theorem State.reply_key (v : Nat) : (s.reply v).key = s.key := rfl
@[simp] theorem State.reply_iv (v : Nat) : (s.reply v).iv = s.iv := rfl
@[simp] theorem State.reply_blk (v : Nat) : (s.reply v).blk = s.blk := rfl
@[simp] theorem State.reply_k (v : Nat) : (s.reply v).k = s.k := rfl
@[simp] theorem State.reply_sb (v : Nat) : (s.reply v).sb = s.sb := rfl
@[simp] theorem State.reply_mem (v : Nat) : (s.reply v).mem = s.mem := rfl
@[simp] theorem State.reply_cfg (v : Nat) : (s.reply v).cfg = s.cfg := rfl
@[simp] theorem State.reply_memEpoch (v : Nat) : (s.reply v).memEpoch = s.memEpoch := rfl
@[simp] theorem State.reply_host (v : Nat) : (s.reply v).host = s.host := rfl
@[simp] theorem State.reply_replies (v : Nat) : (s.reply v).replies = s.replies ++ [v] := rfl

/-! ### pushIssue -/

@[simp] theorem State.pushIssue_cmd (c : Byte) : (s.pushIssue c).cmd = s.cmd := rfl
@[simp] theorem State.pushIssue_status (c : Byte) : (s.pushIssue c).status = s.status := rfl
@[simp] theorem State.pushIssue_sstat (c : Byte) : (s.pushIssue c).sstat = s.sstat := rfl
@[simp] theorem State.pushIssue_klen (c : Byte) : (s.pushIssue c).klen = s.klen := rfl
@[simp] theorem State.pushIssue_result (c : Byte) : (s.pushIssue c).result = s.result := rfl
@[simp] theorem State.pushIssue_src (c : Byte) : (s.pushIssue c).src = s.src := rfl
@[simp] theorem State.pushIssue_slen (c : Byte) : (s.pushIssue c).slen = s.slen := rfl
@[simp] theorem State.pushIssue_dst (c : Byte) : (s.pushIssue c).dst = s.dst := rfl
@[simp] theorem State.pushIssue_dcap (c : Byte) : (s.pushIssue c).dcap = s.dcap := rfl
@[simp] theorem State.pushIssue_key (c : Byte) : (s.pushIssue c).key = s.key := rfl
@[simp] theorem State.pushIssue_iv (c : Byte) : (s.pushIssue c).iv = s.iv := rfl
@[simp] theorem State.pushIssue_blk (c : Byte) : (s.pushIssue c).blk = s.blk := rfl
@[simp] theorem State.pushIssue_k (c : Byte) : (s.pushIssue c).k = s.k := rfl
@[simp] theorem State.pushIssue_sb (c : Byte) : (s.pushIssue c).sb = s.sb := rfl
@[simp] theorem State.pushIssue_mem (c : Byte) : (s.pushIssue c).mem = s.mem := rfl
@[simp] theorem State.pushIssue_cfg (c : Byte) : (s.pushIssue c).cfg = s.cfg := rfl
@[simp] theorem State.pushIssue_memEpoch (c : Byte) : (s.pushIssue c).memEpoch = s.memEpoch := rfl
@[simp] theorem State.pushIssue_host (c : Byte) : (s.pushIssue c).host = .write .CMD 0 c.toNat :: s.host := rfl
@[simp] theorem State.pushIssue_replies (c : Byte) : (s.pushIssue c).replies = s.replies := rfl

/-! ### hostReset -/

@[simp] theorem hostReset_cmd : (hostReset s).cmd = 0 := rfl
@[simp] theorem hostReset_status : (hostReset s).status = 0 := rfl
@[simp] theorem hostReset_sstat : (hostReset s).sstat = 0 := rfl
@[simp] theorem hostReset_klen : (hostReset s).klen = 0 := rfl
@[simp] theorem hostReset_result : (hostReset s).result = 0 := rfl
@[simp] theorem hostReset_src : (hostReset s).src = 0 := rfl
@[simp] theorem hostReset_slen : (hostReset s).slen = 0 := rfl
@[simp] theorem hostReset_dst : (hostReset s).dst = 0 := rfl
@[simp] theorem hostReset_dcap : (hostReset s).dcap = 0 := rfl
@[simp] theorem hostReset_key : (hostReset s).key = Vector.replicate 32 0 := rfl
@[simp] theorem hostReset_iv : (hostReset s).iv = Vector.replicate 16 0 := rfl
@[simp] theorem hostReset_blk : (hostReset s).blk = Vector.replicate 16 0 := rfl
@[simp] theorem hostReset_k : (hostReset s).k = Vector.replicate 40 0 := rfl
@[simp] theorem hostReset_sb : (hostReset s).sb = Vector.replicate 4 (Vector.replicate 256 0) := rfl
@[simp] theorem hostReset_mem : (hostReset s).mem = [] := rfl
@[simp] theorem hostReset_cfg : (hostReset s).cfg = s.cfg := rfl
@[simp] theorem hostReset_memEpoch : (hostReset s).memEpoch = s.memEpoch + 1 := rfl
@[simp] theorem hostReset_host : (hostReset s).host = s.host := rfl
@[simp] theorem hostReset_replies : (hostReset s).replies = s.replies := rfl

/-! ### putReg: the fields no register write touches -/

@[simp] theorem State.putReg_status (r : Reg) (i v : Nat) : (s.putReg r i v).status = s.status := by
  cases r <;> rfl
@[simp] theorem State.putReg_sstat (r : Reg) (i v : Nat) : (s.putReg r i v).sstat = s.sstat := by
  cases r <;> rfl
@[simp] theorem State.putReg_result (r : Reg) (i v : Nat) : (s.putReg r i v).result = s.result := by
  cases r <;> rfl
@[simp] theorem State.putReg_k (r : Reg) (i v : Nat) : (s.putReg r i v).k = s.k := by
  cases r <;> rfl
@[simp] theorem State.putReg_sb (r : Reg) (i v : Nat) : (s.putReg r i v).sb = s.sb := by
  cases r <;> rfl
@[simp] theorem State.putReg_mem (r : Reg) (i v : Nat) : (s.putReg r i v).mem = s.mem := by
  cases r <;> rfl
@[simp] theorem State.putReg_cfg (r : Reg) (i v : Nat) : (s.putReg r i v).cfg = s.cfg := by
  cases r <;> rfl
@[simp] theorem State.putReg_memEpoch (r : Reg) (i v : Nat) : (s.putReg r i v).memEpoch = s.memEpoch := by
  cases r <;> rfl
@[simp] theorem State.putReg_host (r : Reg) (i v : Nat) : (s.putReg r i v).host = s.host := by
  cases r <;> rfl
@[simp] theorem State.putReg_replies (r : Reg) (i v : Nat) : (s.putReg r i v).replies = s.replies := by
  cases r <;> rfl

/-! ### Status codes -/

theorem CmdError.code_pos (e : CmdError) : 0 < e.code.toNat := by cases e <;> decide

theorem CmdError.code_le (e : CmdError) : e.code.toNat ≤ 5 := by cases e <;> decide

theorem CmdError.code_ne_ok (e : CmdError) : e.code ≠ statusOk := by cases e <;> decide

/-! ### SSTAT -/

theorem sstatValid_two : sstatValid 2 = 0x82 := by decide

theorem sstatValid_three : sstatValid 3 = 0x83 := by decide

theorem sstatValid_four : sstatValid 4 = 0x84 := by decide

@[simp] theorem State.sv_clearSchedule : s.clearSchedule.sv = false := by simp [State.sv, sstatInvalid]

@[simp] theorem State.kn_clearSchedule : s.clearSchedule.kn = 0 := by simp [State.kn, sstatInvalid]

@[simp] theorem State.sv_finish (r : Nat) : (s.finish r).sv = s.sv := rfl

@[simp] theorem State.kn_finish (r : Nat) : (s.finish r).kn = s.kn := rfl

@[simp] theorem State.sv_raise (e : CmdError) : (s.raise e).sv = s.sv := rfl

@[simp] theorem State.sv_keepSchedule (k : RoundKeys) (sb : SBoxes) (n : Nat) : (s.keepSchedule k sb n).sv = true := by
  simp only [State.sv, State.keepSchedule_sstat, sstatValid]
  rw [BitVec.getLsbD_append]
  simp

theorem State.kn_keepSchedule (k : RoundKeys) (sb : SBoxes) {n : Nat} (h : n < 8) : (s.keepSchedule k sb n).kn = n := by
  have h' : ∀ m : Fin 8, (sstatValid m.val).extractLsb' 0 3 = BitVec.ofNat 3 m.val := by decide
  simpa [State.kn, Nat.mod_eq_of_lt h] using congrArg BitVec.toNat (h' ⟨n, h⟩)

end Sys2Proof.Machine
end

