-- ==== Sys2Proof/Laws/Memory.lean ====
section
/-! SUPPORT. What each memory operation does: read after write, the canonical form, and the range check. -/

namespace Sys2Proof.Machine

/-! ### Reading after writing -/

theorem Memory.lookup_store (m : Memory) (h : m.wf) (x y : Nat) (v : Byte) :
    (m.store x v).lookup y = if y = x then some v else m.lookup y := by
  induction m with
  | nil => simp [Memory.store, Memory.lookup]
  | cons c m ih =>
    obtain ⟨a, b⟩ := c
    have hm : Memory.wf m := List.Pairwise.of_cons h
    have ha : ∀ d ∈ m, a < d.1 := fun d hd => (List.pairwise_cons.1 h).1 d hd
    have none_below : ∀ z, z ≤ a → Memory.lookup m z = none := by
      intro z hz
      clear ih h hm
      induction m with
      | nil => rfl
      | cons d m ih' =>
        have hd := ha d (by simp)
        simp only [Memory.lookup]
        rw [if_neg (by omega)]
        exact ih' (fun e he => ha e (by simp [he]))
    simp only [Memory.store]
    split
    · simp [Memory.lookup]
    · split
      · subst_vars
        simp only [Memory.lookup]
        split <;> simp_all
      · simp only [Memory.lookup, ih hm]
        split
        · rw [if_neg (by omega)]
        · rfl

theorem Memory.mem_store {m : Memory} {x : Nat} {v : Byte} {c : Host.Cell} (h : c ∈ m.store x v) :
    c = (x, v) ∨ c ∈ m := by
  induction m with
  | nil => simpa [Memory.store] using h
  | cons d m ih =>
    obtain ⟨a, b⟩ := d
    simp only [Memory.store] at h
    split at h
    · simpa using h
    · split at h
      · rcases List.mem_cons.1 h with h | h
        · exact .inl h
        · exact .inr (by simp [h])
      · rcases List.mem_cons.1 h with h | h
        · exact .inr (by simp [h])
        · exact (ih h).imp id (fun h => by simp [h])

theorem Memory.store_wf {m : Memory} (h : m.wf) (x : Nat) (v : Byte) : (m.store x v).wf := by
  induction m with
  | nil => simp [Memory.store, Memory.wf]
  | cons c m ih =>
    obtain ⟨a, b⟩ := c
    have ⟨ha, hm⟩ := List.pairwise_cons.1 h
    simp only [Memory.store]
    split
    · next hx =>
      refine List.pairwise_cons.2 ⟨fun d hd => ?_, h⟩
      rcases List.mem_cons.1 hd with rfl | hd
      · exact hx
      · exact Nat.lt_trans hx (ha d hd)
    · split
      · next hx => exact List.pairwise_cons.2 ⟨fun d hd => hx ▸ ha d hd, hm⟩
      · refine List.pairwise_cons.2 ⟨fun d hd => ?_, ih hm⟩
        rcases Memory.mem_store hd with rfl | hd
        · simp only; omega
        · exact ha d hd

theorem Memory.storeAll_wf {m : Memory} (h : m.wf) (x : Nat) (vs : List Byte) : (m.storeAll x vs).wf := by
  induction vs generalizing m x with
  | nil => exact h
  | cons v vs ih => exact ih (Memory.store_wf h x v) (x + 1)

theorem Memory.mem_storeAll {m : Memory} {x : Nat} {vs : List Byte} {c : Host.Cell} (h : c ∈ m.storeAll x vs) :
    c ∈ m ∨ x ≤ c.1 ∧ c.1 < x + vs.length := by
  induction vs generalizing m x with
  | nil => exact .inl h
  | cons v vs ih =>
    rcases ih h with h | h
    · rcases Memory.mem_store h with rfl | h
      · exact .inr (by simp)
      · exact .inl h
    · exact .inr (by simp only [List.length_cons]; omega)

theorem Memory.lookup_storeAll (m : Memory) (h : m.wf) (x y : Nat) (vs : List Byte) :
    (m.storeAll x vs).lookup y = if x ≤ y ∧ y < x + vs.length then vs[y - x]? else m.lookup y := by
  induction vs generalizing m x with
  | nil => simp [Memory.storeAll]
  | cons v vs ih =>
    rw [Memory.storeAll, ih _ (Memory.store_wf h x v), Memory.lookup_store m h]
    simp only [List.length_cons]
    by_cases h1 : y = x
    · subst h1
      rw [if_neg (by omega), if_pos (by omega)]
      simp
    · by_cases h2 : x ≤ y ∧ y < x + (vs.length + 1)
      · rw [if_pos (by omega), if_pos h2, show y - x = (y - (x + 1)) + 1 by omega]
        simp
      · rw [if_neg (by omega), if_neg h2, if_neg h1]

/-- Reading after `MemWrite` (20_memory.md R51, R52): inside the range the string written, outside what was there. -/
theorem State.readByte_memWrite (s : State) (h : s.mem.wf) (x y : Nat) (vs : List Byte) :
    (s.memWrite x vs).readByte y = if x ≤ y ∧ y < x + vs.length then vs.getD (y - x) 0 else s.readByte y := by
  simp only [State.readByte, State.memWrite_mem, State.memWrite_memEpoch, Memory.lookup_storeAll _ h]
  split
  · next h' => rw [List.getD_eq_getElem?_getD, List.getElem?_eq_getElem (by omega)]; rfl
  · rfl

/-! ### Reads see memory alone -/

theorem State.readByte_congr {s t : State} (hm : t.mem = s.mem) (he : t.memEpoch = s.memEpoch) (x : Nat) :
    t.readByte x = s.readByte x := by simp [State.readByte, hm, he]

@[simp] theorem State.readByte_finish (s : State) (r x : Nat) : (s.finish r).readByte x = s.readByte x := rfl

@[simp] theorem State.readByte_raise (s : State) (e : CmdError) (x : Nat) : (s.raise e).readByte x = s.readByte x := rfl

@[simp] theorem State.readByte_clearSchedule (s : State) (x : Nat) : s.clearSchedule.readByte x = s.readByte x := rfl

@[simp] theorem State.length_memRead (s : State) (x n : Nat) : (s.memRead x n).length = n := by simp [State.memRead]

theorem State.getD_memRead (s : State) (x : Nat) {n j : Nat} (h : j < n) : (s.memRead x n).getD j 0 = s.readByte (x + j) := by
  simp [State.memRead, h]

/-! ### The range check -/

theorem touchesHole_eq_false_iff (c : Config) (x n : Nat) :
    touchesHole c x n = false ↔ ∀ a, x ≤ a → a < x + n → populated c a = true := by
  unfold touchesHole populated
  simp only [List.any_eq_false, List.all_eq_true, Bool.and_eq_true, decide_eq_true_eq, Bool.or_eq_true]
  constructor
  · intro h a h1 h2 p hp
    have := h p hp
    omega
  · intro h p hp hq
    have h1 := h (max x p.1) (by omega) (by omega) p hp
    omega

theorem rangeRefusal_eq_none_iff (c : Config) (x n : Nat) : rangeRefusal c (x, n) = none ↔ Fits c x n := by
  unfold rangeRefusal Fits addressSpace
  by_cases h1 : 2 ^ c.aw < x + n
  · simp only [h1, if_true, reduceCtorEq, false_iff]
    omega
  · rw [if_neg h1]
    have h3 := touchesHole_eq_false_iff c x n
    cases h2 : touchesHole c x n with
    | true => simp [h2] at h3 ⊢; intro _; exact h3
    | false => simp [h2] at h3 ⊢; exact ⟨by omega, h3⟩

/-- A command whose ranges all fit answers its next state. -/
theorem onRanges_of_fits {c : Config} {rs : List (Nat × Nat)} {t : State} (h : ∀ r ∈ rs, Fits c r.1 r.2) :
    onRanges c rs t = .next t := by
  have : rs.findSome? (rangeRefusal c) = none :=
    List.findSome?_eq_none_iff.2 fun r hr => (rangeRefusal_eq_none_iff c r.1 r.2).2 (h r hr)
  simp [onRanges, this]

/-- All that the range check can answer. -/
theorem onRanges_cases (c : Config) (rs : List (Nat × Nat)) (t : State) :
    (onRanges c rs t = .next t ∧ ∀ r ∈ rs, Fits c r.1 r.2) ∨
    (RefusedForRange (onRanges c rs t) ∧ ∃ r ∈ rs, ¬ Fits c r.1 r.2) := by
  cases h : rs.findSome? (rangeRefusal c) with
  | none =>
    refine .inl ⟨by simp [onRanges, h], fun r hr => ?_⟩
    exact (rangeRefusal_eq_none_iff c r.1 r.2).1 (List.findSome?_eq_none_iff.1 h r hr)
  | some f =>
    refine .inr ⟨?_, ?_⟩
    · obtain ⟨r, -, hr⟩ := List.exists_of_findSome?_eq_some h
      simp only [onRanges, h]
      unfold rangeRefusal at hr
      split at hr
      · exact .inl (by simp_all)
      · split at hr
        · exact .inr (by simp_all)
        · simp at hr
    · obtain ⟨r, hm, hr⟩ := List.exists_of_findSome?_eq_some h
      exact ⟨r, hm, fun hf => by simp [(rangeRefusal_eq_none_iff c r.1 r.2).2 hf] at hr⟩

/-- If a command that needs ranges answers next, it answers its next state and the ranges fit. -/
theorem onRanges_of_not_fits {c : Config} {rs : List (Nat × Nat)} {t : State} (h : ∃ r ∈ rs, ¬ Fits c r.1 r.2) :
    RefusedForRange (onRanges c rs t) := by
  rcases onRanges_cases c rs t with ⟨-, hf⟩ | ⟨hr, -⟩
  · obtain ⟨r, hr, hn⟩ := h
    exact absurd (hf r hr) hn
  · exact hr

theorem onRanges_eq_next {c : Config} {rs : List (Nat × Nat)} {t u : State} (h : onRanges c rs t = .next u) :
    u = t ∧ ∀ r ∈ rs, Fits c r.1 r.2 := by
  rcases onRanges_cases c rs t with ⟨h', hf⟩ | ⟨h' | h', -⟩ <;> rw [h'] at h <;> simp_all

end Sys2Proof.Machine
end

