-- ==== Sys2Proof/Laws/Exec.lean ====
section
/-! SUPPORT. Inversion: what each command can answer, said once (later proofs cite these and do not unfold a meaning). -/

namespace Sys2Proof.Machine

theorem keyLengthLegal_iff (n : Nat) : keyLengthLegal n = true ↔ n = 16 ∨ n = 24 ∨ n = 32 := by
  simp [keyLengthLegal, or_assoc]

theorem ciphertextLengthLegal_iff (n : Nat) : ciphertextLengthLegal n = true ↔ 0 < n ∧ n % 16 = 0 := by
  simp [ciphertextLengthLegal]

/-- `ESIZE`: the padded size, or the refusal of U2. -/
theorem execEsize_cases (s : State) :
    (encryptedSize s.slen < 2 ^ s.cfg.aw ∧ exec .esize s = .next (s.finish (encryptedSize s.slen))) ∨
    (¬ encryptedSize s.slen < 2 ^ s.cfg.aw ∧ exec .esize s = .refused .paddedSizeTooLarge) := by
  by_cases h : encryptedSize s.slen < 2 ^ s.cfg.aw
  · exact .inl ⟨h, by simp [exec, execEsize, addressSpace, h]⟩
  · exact .inr ⟨h, by simp [exec, execEsize, addressSpace, h]⟩

/-- `KS`: the schedule kept, or InvalidKeyLength and the store cleared. -/
theorem execKs_cases (s : State) :
    (KeyLengthOk s ∧ exec .ks s =
      .next ((s.keepSchedule (roundKeys s.keyBytes) (sBoxes s.keyBytes) (s.klen.toNat / 8)).finish 0)) ∨
    (¬ KeyLengthOk s ∧ exec .ks s = .next (s.clearSchedule.raise .invalidKeyLength)) := by
  have h' := keyLengthLegal_iff s.klen.toNat
  by_cases h : KeyLengthOk s
  · exact .inl ⟨h, by simp [exec, execKs, h'.2 h]⟩
  · exact .inr ⟨h, by simp [exec, execKs, Bool.eq_false_iff.2 (fun e => h (h'.1 e))]⟩

/-- `EBLK`: the block encrypted, or NoSchedule. -/
theorem execEblk_cases (s : State) :
    (s.sv = true ∧ exec .eblk s = .next ({ s with blk := encryptBlock s.k s.sb s.blk }.finish 0)) ∨
    (s.sv = false ∧ exec .eblk s = .next (s.raise .noSchedule)) := by
  cases h : s.sv <;> simp [exec, execEblk, h]

/-- `DBLK`: the block decrypted, or NoSchedule. -/
theorem execDblk_cases (s : State) :
    (s.sv = true ∧ exec .dblk s = .next ({ s with blk := decryptBlock s.k s.sb s.blk }.finish 0)) ∨
    (s.sv = false ∧ exec .dblk s = .next (s.raise .noSchedule)) := by
  cases h : s.sv <;> simp [exec, execDblk, h]

/-- `PAD`: BufferTooSmall, or the padded message written where the ranges fit. -/
theorem execPad_cases (s : State) :
    (s.dcap < encryptedSize s.slen ∧ exec .pad s = .next (s.raise .bufferTooSmall)) ∨
    (encryptedSize s.slen ≤ s.dcap ∧ exec .pad s =
      onRanges s.cfg [(s.src, s.slen), (s.dst, encryptedSize s.slen)]
        ((s.memWrite s.dst (padInsert (s.memRead s.src s.slen))).finish (encryptedSize s.slen))) := by
  by_cases h : s.dcap < encryptedSize s.slen
  · exact .inl ⟨h, by simp [exec, execPad, h]⟩
  · exact .inr ⟨by omega, by simp [exec, execPad, h]⟩

/-- `UNPAD`: InvalidCiphertextLength, or the recovered length where the range fits. -/
theorem execUnpad_cases (s : State) :
    (¬ CiphertextLengthOk s ∧ exec .unpad s = .next (s.raise .invalidCiphertextLength)) ∨
    (CiphertextLengthOk s ∧ exec .unpad s =
      onRanges s.cfg [(s.src, s.slen)] (s.finish (recoveredLength (s.memRead s.src s.slen)))) := by
  have h' := ciphertextLengthLegal_iff s.slen
  by_cases h : CiphertextLengthOk s
  · exact .inr ⟨h, by simp [exec, execUnpad, h'.2 h]⟩
  · exact .inl ⟨h, by simp [exec, execUnpad, Bool.eq_false_iff.2 (fun e => h (h'.1 e))]⟩

/-- `ENC`: InvalidKeyLength, then BufferTooSmall, then the ciphertext written where the ranges fit. -/
theorem execEnc_cases (s : State) :
    (¬ KeyLengthOk s ∧ exec .enc s = .next (s.clearSchedule.raise .invalidKeyLength)) ∨
    (KeyLengthOk s ∧ s.dcap < encryptedSize s.slen ∧ exec .enc s = .next (s.clearSchedule.raise .bufferTooSmall)) ∨
    (KeyLengthOk s ∧ encryptedSize s.slen ≤ s.dcap ∧ exec .enc s =
      onRanges s.cfg [(s.src, s.slen), (s.dst, encryptedSize s.slen)]
        ((s.memWrite s.dst (encryptMessage (s.memRead s.src s.slen) s.keyBytes s.iv)).clearSchedule.finish
          (encryptedSize s.slen))) := by
  have h' := keyLengthLegal_iff s.klen.toNat
  by_cases h : KeyLengthOk s
  · by_cases hd : s.dcap < encryptedSize s.slen
    · exact .inr (.inl ⟨h, hd, by simp [exec, execEnc, h'.2 h, hd]⟩)
    · exact .inr (.inr ⟨h, by omega, by simp [exec, execEnc, h'.2 h, hd]⟩)
  · exact .inl ⟨h, by simp [exec, execEnc, Bool.eq_false_iff.2 (fun e => h (h'.1 e))]⟩

/-- `DEC`: InvalidCiphertextLength, InvalidKeyLength, BufferTooSmall, then the plaintext written where the ranges fit. -/
theorem execDec_cases (s : State) :
    (¬ CiphertextLengthOk s ∧ exec .dec s = .next (s.clearSchedule.raise .invalidCiphertextLength)) ∨
    (CiphertextLengthOk s ∧ ¬ KeyLengthOk s ∧ exec .dec s = .next (s.clearSchedule.raise .invalidKeyLength)) ∨
    (CiphertextLengthOk s ∧ KeyLengthOk s ∧ s.dcap < s.slen ∧
      exec .dec s = .next (s.clearSchedule.raise .bufferTooSmall)) ∨
    (CiphertextLengthOk s ∧ KeyLengthOk s ∧ s.slen ≤ s.dcap ∧ exec .dec s =
      onRanges s.cfg [(s.src, s.slen), (s.dst, s.slen)]
        ((s.memWrite s.dst (decryptMessage (s.memRead s.src s.slen) s.keyBytes s.iv)).clearSchedule.finish
          (recoveredLength (decryptMessage (s.memRead s.src s.slen) s.keyBytes s.iv)))) := by
  have h1 := ciphertextLengthLegal_iff s.slen
  have h2 := keyLengthLegal_iff s.klen.toNat
  by_cases hc : CiphertextLengthOk s
  · by_cases h : KeyLengthOk s
    · by_cases hd : s.dcap < s.slen
      · exact .inr (.inr (.inl ⟨hc, h, hd, by simp [exec, execDec, h1.2 hc, h2.2 h, hd]⟩))
      · exact .inr (.inr (.inr ⟨hc, h, by omega, by simp [exec, execDec, h1.2 hc, h2.2 h, hd]⟩))
    · exact .inr (.inl ⟨hc, h, by simp [exec, execDec, h1.2 hc, Bool.eq_false_iff.2 (fun e => h (h2.1 e))]⟩)
  · exact .inl ⟨hc, by simp [exec, execDec, Bool.eq_false_iff.2 (fun e => hc (h1.1 e))]⟩

end Sys2Proof.Machine
end

