-- ==== Sys2Proof/Laws/PerInstr.lean ====
section
/-! SUPPORT. What holds of every instruction as syntax, one lemma per constructor. -/

/-- The word an instruction encodes to is legal by the ranges of 30_encoding.md R76, and only its low four bits are used
(R70: `RSV` is 0). -/
def Sys2Proof.Laws.LegalEncoding.Statement (i : Sys2Proof.Instr) : Prop :=
  Sys2Proof.legalWord (Sys2Proof.encode i) = true ∧ Sys2Proof.rsvField (Sys2Proof.encode i) = 0

namespace Sys2Proof.Laws.LegalEncoding

theorem esize : Statement .esize := by unfold Statement; decide

theorem enc : Statement .enc := by unfold Statement; decide

theorem dec : Statement .dec := by unfold Statement; decide

theorem ks : Statement .ks := by unfold Statement; decide

theorem eblk : Statement .eblk := by unfold Statement; decide

theorem dblk : Statement .dblk := by unfold Statement; decide

theorem pad : Statement .pad := by unfold Statement; decide

theorem unpad : Statement .unpad := by unfold Statement; decide

theorem clr : Statement .clr := by unfold Statement; decide

end Sys2Proof.Laws.LegalEncoding
end

