-- ==== Sys2Proof/Laws/Step.lean ====
section
/-! SUPPORT. Inversion of one step: what the machine can do with the host's next primitive. -/

namespace Sys2Proof.Machine

/-- With nothing pending the core is idle. -/
theorem step_idle {s : State} (h : s.host = []) : step s = .next s := by simp [step, h]

/-- A step performs the oldest pending primitive. -/
theorem step_pending {s : State} {op : HostOp} {rest : List HostOp} (h : s.host = op :: rest) :
    step s = perform op { s with host := rest } := by simp [step, h]

/-- What issuing a word does (30_encoding.md R71). -/
theorem issue_cases (c : Byte) (s : State) :
    (∃ i, decodeWord c = .ok i ∧ issue c s = exec i { s with cmd := c }) ∨
    (∃ e, decodeWord c = .error e ∧ issue c s = .next (State.raise { s with cmd := c } .illegalCommand)) := by
  cases h : decodeWord c with
  | ok i => exact .inl ⟨i, rfl, by simp [issue, h, State.putReg]⟩
  | error e => exact .inr ⟨e, rfl, by simp [issue, h, State.putReg]⟩

/-- All that a primitive can do when it answers next. -/
theorem perform_cases {op : HostOp} {s t : State} (h : perform op s = .next t) :
    (∃ i v, op = .write .CMD i v ∧ i = 0 ∧ issue (BitVec.ofNat 8 v) s = .next t) ∨
    (∃ r i v, op = .write r i v ∧ r ≠ .CMD ∧ i < r.elements ∧ t = s.putReg r i v) ∨
    (∃ r i, op = .read r i ∧ i < r.elements ∧ t = s.reply (s.getReg r i)) ∨
    (∃ x v, op = .memStore x v ∧ hostAddressFault s.cfg x = none ∧ t = s.memWrite x [v]) ∨
    (∃ x, op = .memLoad x ∧ hostAddressFault s.cfg x = none ∧ t = s.reply (s.readByte x).toNat) ∨
    (op = .reset ∧ t = hostReset s) := by
  cases op with
  | write r i v =>
    simp only [perform, hostWrite] at h
    split at h
    · next hi =>
      split at h
      · next hr => subst hr; exact .inl ⟨i, v, rfl, by simpa [Reg.elements] using hi, h⟩
      · next hr => exact .inr (.inl ⟨r, i, v, rfl, hr, hi, by simpa using h.symm⟩)
    · cases h
  | read r i =>
    simp only [perform, hostRead] at h
    split at h
    · next hi => exact .inr (.inr (.inl ⟨r, i, rfl, hi, by simpa using h.symm⟩))
    · cases h
  | memStore x v =>
    simp only [perform, hostMemStore] at h
    split at h
    · cases h
    · next hf => exact .inr (.inr (.inr (.inl ⟨x, v, rfl, hf, by simpa using h.symm⟩)))
  | memLoad x =>
    simp only [perform, hostMemLoad] at h
    split at h
    · cases h
    · next hf => exact .inr (.inr (.inr (.inr (.inl ⟨x, rfl, hf, by simpa using h.symm⟩))))
  | reset => exact .inr (.inr (.inr (.inr (.inr ⟨rfl, by simpa [perform] using h.symm⟩))))

theorem hostAddressFault_eq_none_iff (c : Config) (x : Nat) :
    hostAddressFault c x = none ↔ x < 2 ^ c.aw ∧ populated c x = true := by
  unfold hostAddressFault addressSpace
  split
  · simp; omega
  · split <;> simp_all

end Sys2Proof.Machine
end

