-- ==== Sys2Proof/Tests/Slice0.lean ====
section
/-! SUPPORT. Tests of one step each, with results taken from 95_test_vectors.md (the section is named at each test), the smoke tests
of WellFormed, and the witnesses that the hypotheses of the statements can be met. -/

namespace Sys2Proof.Tests

set_option Elab.async false

open Sys2Proof Sys2Proof.Machine

/-! ### Helpers -/

/-- A byte string of `n` bytes written as one hexadecimal number, index 0 first. -/
def hex (n v : Nat) : List Byte := (List.range n).map (fun i => BitVec.ofNat 8 (v / 256 ^ (n - 1 - i)))

/-- The first `n` elements of a register, the rest zero. -/
def vec (n : Nat) (s : List Byte) : Vector Byte n := tabulate n (fun j => s.getD j 0)

/-- A memory that lists the string `s` at `a` and nothing else. -/
def loaded (a : Nat) (s : List Byte) : Memory := (List.range s.length).map (fun j => (a + j, s.getD j 0))

def nextOf : Result → Option State
  | .next t => some t
  | .fault _ => none
  | .refused _ => none

def refusalOf : Result → Option Refusal
  | .next _ => none
  | .fault _ => none
  | .refused r => some r

/-- What `f` shows of the next state. -/
def shown {α : Type} (f : State → α) (r : Result) : Option α := (nextOf r).map f

theorem next_of_shown {α : Type} {f : State → α} {r : Result} {a : α} (h : shown f r = some a) :
    ∃ t, r = .next t ∧ f t = a := by
  cases r <;> simp [shown, nextOf] at h ⊢
  exact h

theorem fits_standard {x n : Nat} (h : x + n ≤ 65536) : Fits Config.standard x n :=
  ⟨h, by simp [populated, Config.standard]⟩

/-- `STATUS`, `RESULT` and `SSTAT`, the columns of 95_test_vectors.md section 7. -/
def outcome (t : State) : Byte × Nat × Byte := (t.status, t.result, t.sstat)

/-! ### WellFormed: each check refuses an ill-formed word -/

theorem test_reserved_refuses_10 : reservedClear 0x10 = false := by decide
theorem test_reserved_refuses_12 : legalWord 0x12 = false ∧ opcodeAssigned 0x12 = true := by decide
theorem test_reserved_refuses_f1 : reservedClear 0xF1 = false := by decide
theorem test_opcode_refuses_00 : opcodeAssigned 0x00 = false ∧ reservedClear 0x00 = true := by decide
theorem test_opcode_refuses_0a : opcodeAssigned 0x0A = false ∧ reservedClear 0x0A = true := by decide
theorem test_opcode_refuses_0f : opcodeAssigned 0x0F = false := by decide
theorem test_legal_bounds : legalWord 0x01 = true ∧ legalWord 0x09 = true := by decide
theorem test_every_instruction_well_formed : ∀ i : Instr, i.wellFormed = true ∧ legalWord (encode i) = true := by
  intro i; cases i <;> decide

/-! ### Decode: each word bit by bit from 30_encoding.md R72, and rejections by name (R76) -/

theorem test_decode_esize : decodeWord 0b00000001#8 = .ok .esize := by decide
theorem test_decode_enc : decodeWord 0b00000010#8 = .ok .enc := by decide
theorem test_decode_dec : decodeWord 0b00000011#8 = .ok .dec := by decide
theorem test_decode_ks : decodeWord 0b00000100#8 = .ok .ks := by decide
theorem test_decode_eblk : decodeWord 0b00000101#8 = .ok .eblk := by decide
theorem test_decode_dblk : decodeWord 0b00000110#8 = .ok .dblk := by decide
theorem test_decode_pad : decodeWord 0b00000111#8 = .ok .pad := by decide
theorem test_decode_unpad : decodeWord 0b00001000#8 = .ok .unpad := by decide
theorem test_decode_clr : decodeWord 0b00001001#8 = .ok .clr := by decide
theorem test_decode_00 : decodeWord 0b00000000#8 = .error (.noSuchOpcode 0b0000#4) := by decide
theorem test_decode_0a : decodeWord 0b00001010#8 = .error (.noSuchOpcode 0b1010#4) := by decide
theorem test_decode_12 : decodeWord 0b00010010#8 = .error (.reservedBits 0b0001#4) := by decide
theorem test_decode_table_word : decodeTableWord 8 0x04 = some .ks ∧ decodeTableWord 8 0xFF = none := by decide
theorem test_encode_words : [Instr.esize, .enc, .dec, .ks, .eblk, .dblk, .pad, .unpad, .clr].map encode =
    [0x01, 0x02, 0x03, 0x04, 0x05, 0x06, 0x07, 0x08, 0x09] := by decide

/-! ### Primitives -/

/-- Section 5.1. -/
theorem test_mul169 : mul169 0x02 0x80 = 0x69 ∧ mul169 0x5B 0xFF = 0x2E ∧ mul169 0xEF 0xA9 = 0x39 := by decide +kernel
/-- Section 5.1. -/
theorem test_mul14D : mul14D 0xA4 0x02 = 0x05 ∧ mul14D 0x9E 0xFF = 0x36 ∧ mul14D 0x55 0x55 = 0xF5 := by decide +kernel
/-- The whole table of 40_primitives.md R95. -/
theorem test_q0_table : (List.range 256).map (fun x => q0 (BitVec.ofNat 8 x)) =
    hex 16 0xA967B3E804FDA3769A928078E4DDD138 ++
    hex 16 0x0DC6359818F7EC6C43753726FA139448 ++
    hex 16 0xF2D08B308454DF23195B3D59F3AEA282 ++
    hex 16 0x6301832ED9519B7CA6EBA5BE160CE361 ++
    hex 16 0xC08C3AF5732C250BBB4E896B536AB4F1 ++
    hex 16 0xE1E6BD45E2F4B666CC950356D41C1ED7 ++
    hex 16 0xFBC38EB5E9CFBFBAEA7739AF33C96271 ++
    hex 16 0x817909AD24CDF9D8E5C5B94D440886E7 ++
    hex 16 0xA11DAAED0670B2D2417BA01131C22790 ++
    hex 16 0x20F660FF965CB1AB9E9C521B5F930AEF ++
    hex 16 0x918549EE2D4F8F3B47876D46D63E6964 ++
    hex 16 0x2ACECB2FFC97057AAC7FD51A4B0EA75A ++
    hex 16 0x28143F29883C4C02B8DAB017551F8A7D ++
    hex 16 0x57C78D74B7C49F727E15221258079934 ++
    hex 16 0x6E50DE6865BCDBF8C8A82B40DCFE32A4 ++
    hex 16 0xCA1021F0D35D0F006F9D36424A5EC1E0 := by decide +kernel
/-- The whole table of 40_primitives.md R96. -/
theorem test_q1_table : (List.range 256).map (fun x => q1 (BitVec.ofNat 8 x)) =
    hex 16 0x75F3C6F4DB7BFBC84AD3E66B457DE84B ++
    hex 16 0xD632D8FD3771F1E1300FF81B87FA063F ++
    hex 16 0x5EBAAE5B8A00BC9D6DC1B10E805DD2D5 ++
    hex 16 0xA0840714B5902CA3B2734C5492743651 ++
    hex 16 0x38B0BD5AFC6062966C42F7107C28278C ++
    hex 16 0x13959CC724463B70CAE385CB11D093B8 ++
    hex 16 0xA68320FF9F77C3CC036F08BF40E72BE2 ++
    hex 16 0x790CAA82413AEAB9E49AA4977EDA7A17 ++
    hex 16 0x6694A11D3DF0DEB30B72A71CEFD1533E ++
    hex 16 0x8F33265FEC762A498188EE21C41AEBD9 ++
    hex 16 0xC53999CDAD318B011823DD1F4E2DF948 ++
    hex 16 0x4FF2658E785C58198DE59857677F0564 ++
    hex 16 0xAF63B6FEF5B73CA5CEE96844E04D4369 ++
    hex 16 0x292EAC1559A80A9E6E47DF34356ACFDC ++
    hex 16 0x22C9C09B89D4EDAB12A20D52BB022FA9 ++
    hex 16 0xD7611EB45004F6C2162586565509BE91 := by decide +kernel
/-- Section 5.4. -/
theorem test_rsmul : rsmul (hex 8 0x0123456789ABCDEF) = 0xB89FF6F2 ∧ rsmul (hex 8 0xFEDCBA9876543210) = 0xB255BC4B := by
  decide +kernel
/-- Section 5.5: four key units, so every row of `QSEL` is used. -/
theorem test_h : hWord 0x12345678 [0x89ABCDEF, 0x01234567, 0x76543210, 0xFEDCBA98] = 0x774B140D := by decide +kernel
/-- Section 5.5. -/
theorem test_pht : pht 0x6F01A38B 0xE3C3AA53 = (0x52C54DDE, 0x3688F831) ∧ rol32 0x3688F831 9 = 0x11F0626D ∧
    ror32 0x871B9549 1 = 0xC38DCAA4 := by decide +kernel
/-- Section 5.6. -/
theorem test_encryptedSize : [0, 1, 15, 16, 17, 31, 32, 33, 4095].map encryptedSize =
    [0, 16, 16, 16, 32, 32, 32, 48, 4096] := by decide
/-- Section 5.7. -/
theorem test_padInsert : padInsert (hex 3 0x616263) = hex 16 0x6162630D0D0D0D0D0D0D0D0D0D0D0D0D := by decide +kernel
/-- Section 5.8: a run, a broken run, a count of 17, a whole block of 16, a run one byte short. -/
theorem test_recoveredLength :
    recoveredLength (hex 16 0x0202) = 14 ∧ recoveredLength (hex 16 0x0302) = 16 ∧ recoveredLength (hex 16 0x11) = 16 ∧
    recoveredLength (List.replicate 16 0x10) = 0 ∧ recoveredLength (hex 16 0x05040404) = 16 := by decide +kernel

/-! ### States for one step -/

/-- "hello" at `0x100`, the operands of Program 1 (section 8). -/
def helloState : State := { State.reset with
  key := vec 32 (hex 16 0x000102030405060708090A0B0C0D0E0F)
  klen := 16
  mem := loaded 0x100 (hex 5 0x68656C6C6F)
  src := 0x100
  slen := 5
  dst := 0x200
  dcap := 16 }

/-- The ciphertext of CV11 (section 6.1) at `0x200`, to be decrypted to `0x300`. -/
def cipherState : State := { State.reset with
  key := vec 32 (hex 16 0x000102030405060708090A0B0C0D0E0F)
  klen := 16
  mem := loaded 0x200 (hex 16 0xFBDAAEE4A4B551DE2AB3A2E4241C3C83)
  src := 0x200
  slen := 16
  dst := 0x300
  dcap := 16 }

/-- The key of KAT192 (section 2) and its schedule. -/
def state192 : State := { State.reset with
  key := vec 32 (hex 24 0x0123456789ABCDEFFEDCBA98765432100011223344556677)
  klen := 24
  k := roundKeys (hex 24 0x0123456789ABCDEFFEDCBA98765432100011223344556677)
  sb := sBoxes (hex 24 0x0123456789ABCDEFFEDCBA98765432100011223344556677)
  sstat := 0x83 }

/-- The key of KAT256 (section 2), its schedule, and the ciphertext in `BLK`. -/
def state256 : State := { State.reset with
  key := vec 32 (hex 32 0x0123456789ABCDEFFEDCBA987654321000112233445566778899AABBCCDDEEFF)
  klen := 32
  k := roundKeys (hex 32 0x0123456789ABCDEFFEDCBA987654321000112233445566778899AABBCCDDEEFF)
  sb := sBoxes (hex 32 0x0123456789ABCDEFFEDCBA987654321000112233445566778899AABBCCDDEEFF)
  sstat := 0x84
  blk := vec 16 (hex 16 0x37527BE0052334B89F0CFCCAE87CFA20) }

/-- Sixteen bytes at `0x100` ending in `02 02`. -/
def paddedState : State := { State.reset with mem := loaded 0x100 (hex 16 0x0202), src := 0x100, slen := 16 }

/-! ### One step of each instruction -/

/-- Section 5.6: `ESIZE` of 17 is 32, and 65521 is refused (43_padding.md R156). -/
theorem test_esize : shown outcome (exec .esize { State.reset with slen := 17 }) = some (0, 32, 0) ∧
    shown outcome (exec .esize { State.reset with slen := 65520 }) = some (0, 65520, 0) ∧
    refusalOf (exec .esize { State.reset with slen := 65521 }) = some .paddedSizeTooLarge := by decide +kernel
/-- CV11 (section 6.1). -/
theorem test_enc : shown (fun t => (outcome t, t.memRead 0x200 16)) (exec .enc helloState) =
    some ((0, 16, 0), hex 16 0xFBDAAEE4A4B551DE2AB3A2E4241C3C83) := by decide +kernel
/-- E19, E18 (section 7). -/
theorem test_enc_errors : shown outcome (exec .enc { helloState with slen := 17, klen := 0, dcap := 31 }) = some (1, 0, 0) ∧
    shown outcome (exec .enc { helloState with slen := 17, dcap := 31, sstat := 0x82 }) = some (3, 0, 0) := by decide +kernel
/-- CV11 (section 6.1). -/
theorem test_dec : shown (fun t => (outcome t, t.memRead 0x300 16)) (exec .dec cipherState) =
    some ((0, 5, 0), hex 16 0x68656C6C6F0B0B0B0B0B0B0B0B0B0B0B) := by decide +kernel
/-- E12, E13, E14 (section 7): the order of the checks. -/
theorem test_dec_errors : shown outcome (exec .dec { State.reset with slen := 15, klen := 7 }) = some (2, 0, 0) ∧
    shown outcome (exec .dec { State.reset with slen := 16, klen := 7 }) = some (1, 0, 0) ∧
    shown outcome (exec .dec { State.reset with slen := 16, klen := 16 }) = some (3, 0, 0) := by decide +kernel
/-- Section 3.3, the first and the last round key; section 3.5. -/
theorem test_ks : shown (fun t => (outcome t, t.k[0], t.k[39], t.sb[2][0x80])) (exec .ks state256) =
    some ((0, 0, 0x84), 0x5EC769BF, 0xF0D54DCD, 0x57) := by decide +kernel
/-- E24 (section 7). -/
theorem test_ks_error : shown (fun t => (outcome t, t.k[0])) (exec .ks { state192 with klen := 17 }) =
    some ((1, 0, 0), 0) := by decide +kernel
/-- KAT192 (section 2). -/
theorem test_eblk : shown (fun t => (outcome t, t.blk.toList)) (exec .eblk state192) =
    some ((0, 0, 0x83), hex 16 0xCFD1D2E5A9BE9CDF501F13B892BD2248) := by decide +kernel
/-- E5 (section 7). -/
theorem test_eblk_error : shown (fun t => (outcome t, t.blk)) (exec .eblk State.reset) =
    some ((4, 0, 0), State.reset.blk) := by decide +kernel
/-- KAT256 (section 2), backwards. -/
theorem test_dblk : shown (fun t => (outcome t, t.blk.toList)) (exec .dblk state256) =
    some ((0, 0, 0x84), List.replicate 16 0) := by decide +kernel
/-- E6 (section 7). -/
theorem test_dblk_error : shown outcome (exec .dblk State.reset) = some (4, 0, 0) := by decide +kernel
/-- "hello" of section 5.7, padded in place. -/
theorem test_pad : shown (fun t => (outcome t, t.memRead 0x100 16)) (exec .pad { helloState with dst := 0x100 }) =
    some ((0, 16, 0), hex 16 0x68656C6C6F0B0B0B0B0B0B0B0B0B0B0B) := by decide +kernel
/-- E22 (section 7). -/
theorem test_pad_error : shown outcome (exec .pad { state192 with slen := 17, dcap := 31 }) = some (3, 0, 0x83) := by
  decide +kernel
/-- The second row of section 5.8. -/
theorem test_unpad : shown outcome (exec .unpad paddedState) = some (0, 14, 0) := by decide +kernel
/-- E23 (section 7), and a range that passes `2^16` (20_memory.md R56). -/
theorem test_unpad_stops : shown outcome (exec .unpad { state192 with slen := 20 }) = some (2, 0, 0x83) ∧
    refusalOf (exec .unpad { paddedState with src := 65521 }) = some .rangeBeyondAddressSpace ∧
    refusalOf (exec .unpad { paddedState with cfg := ⟨16, [(0x10F, 1)]⟩ }) = some .rangeUnpopulated := by decide +kernel
/-- Program 2, step 14 (section 8). -/
theorem test_clr : shown (fun t => ((outcome t, t.klen), (t.key.toList, t.blk.toList), t.k[0], t.sb[0][0]))
    (exec .clr { state256 with status := 5, result := 9 }) =
    some (((0, 0, 0), 0), (List.replicate 32 0, List.replicate 16 0), 0, 0) := by decide +kernel
/-- E11 (section 7), issued by a step. -/
theorem test_illegal_word : shown (fun t => (outcome t, t.cmd)) (step (state192.withFetchWord 8 0x15)) =
    some ((5, 0, 0x83), 0x15) := by decide +kernel
/-- `ESIZE` as the first command after reset (E1, section 7). -/
theorem test_first_command : shown (fun t => (outcome t, t.cmd)) (step (State.reset.withFetchWord 8 0x01)) =
    some ((0, 0, 0), 0x01) := by decide +kernel
/-- 10_state.md R21: a value is truncated to the register's width. -/
theorem test_host_write : shown (fun t => (t.src, t.host)) (step { State.reset with host := [.write .SRC 0 0x12345] }) =
    some (0x2345, []) := by decide +kernel
/-- 20_memory.md R62: the host reads what was written. -/
theorem test_host_memory :
    shown (fun t => t.readByte 0xFFFF) (step { State.reset with host := [.memStore 0xFFFF 0xEE] }) = some 0xEE ∧
    shown (fun t => t.replies) (step { helloState with host := [.memLoad 0x101] }) = some [0x65] := by decide +kernel

/-! ### Witnesses: states and operands that meet the hypotheses of the statements

One theorem `witness_<Statement>` for each statement with hypotheses, a clause of each at the bounds of its range. Where a
statement asks for a next state, the witness is that the command answers one. -/

theorem witness_DecodeInvertsEncode : Instr.wellFormed .esize = true ∧ Instr.wellFormed .clr = true := by decide

theorem witness_IllegalWordsRaiseIllegalCommand :
    (∃ e, decodeWord 0x00 = .error e) ∧ (∃ e, decodeWord 0x0A = .error e) ∧ (∃ e, decodeWord 0x10 = .error e) ∧
    ∃ e, decodeWord 0xFF = .error e :=
  ⟨⟨.noSuchOpcode 0, by decide⟩, ⟨.noSuchOpcode 10, by decide⟩, ⟨.reservedBits 1, by decide⟩, ⟨.reservedBits 15, by decide⟩⟩

theorem witness_StepRunsTheDecodedCommand :
    { State.reset with host := [.write .CMD 0 0x109, .reset] }.host = .write .CMD 0 0x109 :: [.reset] ∧
    decodeWord (BitVec.ofNat 8 0x109) = .ok .clr ∧ decodeTableWord 8 0x01 = some .esize := by decide

/-- Nothing pending; a command; a read of a register and one of memory, which are the steps that tell the host something. -/
theorem witness_StepsFollowTheHostsOrder :
    State.reset.host = [] ∧
    (∃ t, step { State.reset with host := [.write .CMD 0 1, .reset] } = .next t ∧ t.replies = []) ∧
    (∃ t, step { State.reset with host := [.read .CMD 0] } = .next t ∧ t.replies = [0]) ∧
    ∃ t, step { helloState with host := [.memLoad 0x100] } = .next t ∧ t.replies = [0x68] :=
  ⟨rfl, next_of_shown (f := State.replies) (by decide +kernel), next_of_shown (f := State.replies) (by decide +kernel),
    next_of_shown (f := State.replies) (by decide +kernel)⟩

theorem witness_ResetZeroesEveryRegister : { helloState with host := [.reset, .read .BLK 0] }.host = .reset :: [.read .BLK 0] := rfl

theorem witness_CommandsStraightAfterReset :
    8 ≤ Config.standard.aw ∧ 8 ≤ (Config.mk 8 [(0, 256)]).aw ∧ 31 < Reg.elements .KEY ∧ 0 < Reg.elements .DCAP := by decide

/-- A state with operands and listed memory, before and after a step. -/
theorem helloState_inv : ({ helloState with host := [.write .CMD 0 7] } : State).Inv where
  awLarge := by decide
  memCanonical := by decide +kernel
  memInSpace := by decide +kernel
  resultInRange := by decide
  srcInRange := by decide
  slenInRange := by decide
  dstInRange := by decide
  dcapInRange := by decide
  statusKnown := by decide
  sstatKnown := .inl rfl
  scheduleOfSomeKey := by intro h; exact absurd h (by decide)
  scheduleEmpty := fun _ => ⟨by simp [helloState, State.reset], by simp [helloState, State.reset], rfl⟩

theorem witness_StepKeepsTheInvariant :
    ({ helloState with host := [.write .CMD 0 7] } : State).Inv ∧
    ∃ t, step { helloState with host := [.write .CMD 0 7] } = .next t ∧ (t.status, t.result) = (0, 16) :=
  ⟨helloState_inv, next_of_shown (f := fun t => (t.status, t.result)) (by decide +kernel)⟩

/-- An `RW` register of bytes at its last element, and one of `AW` bits. -/
theorem witness_HostWriteThenReadReturnsTruncated :
    Reg.KEY ≠ .CMD ∧ Reg.KEY ≠ .STATUS ∧ Reg.KEY ≠ .SSTAT ∧ Reg.KEY ≠ .RESULT ∧ 31 < Reg.elements .KEY ∧
    Reg.DCAP ≠ .CMD ∧ Reg.DCAP ≠ .STATUS ∧ Reg.DCAP ≠ .SSTAT ∧ Reg.DCAP ≠ .RESULT ∧ 0 < Reg.elements .DCAP ∧
    { State.reset with host := [.write .KEY 31 0x1FF, .read .KEY 31] }.host = .write .KEY 31 0x1FF :: .read .KEY 31 :: [] := by
  decide

theorem witness_ReadOnlyRegistersIgnoreWrites :
    { State.reset with host := [.write .SSTAT 0 0x82] }.host = .write .SSTAT 0 0x82 :: [] ∧
    { State.reset with host := [.read .IV 15] }.host = .read .IV 15 :: [] ∧ 15 < Reg.elements .IV := by decide

/-- The highest address, the first past it, and the highest of an unpopulated range. -/
theorem witness_HostMemoryAccess :
    helloState.mem.wf ∧ 65535 < 2 ^ helloState.cfg.aw ∧ populated helloState.cfg 65535 = true ∧
    2 ^ helloState.cfg.aw ≤ 65536 ∧
    { helloState with host := [.memStore 65535 1] }.host = .memStore 65535 1 :: [] ∧
    { helloState with host := [.memLoad 65535] }.host = .memLoad 65535 :: [] ∧
    65535 < 2 ^ (Config.mk 16 [(65534, 2)]).aw ∧ populated (Config.mk 16 [(65534, 2)]) 65535 = false := by decide +kernel

theorem witness_FieldMultiplicationLaws :
    polyMds.getLsbD 8 = true ∧ polyRs.getLsbD 8 = true ∧ (0x100 : BitVec 9).getLsbD 8 = true := by decide

theorem witness_MatrixProductsAreLinear : (hex 8 0x0123456789ABCDEF).length = 8 ∧ (hex 8 0xFEDCBA9876543210).length = 8 := by
  decide

theorem witness_KsKeepsTheScheduleOfTheKey :
    KeyLengthOk helloState ∧ KeyLengthOk state192 ∧ KeyLengthOk state256 ∧ ¬ KeyLengthOk State.reset ∧
    ¬ KeyLengthOk { helloState with klen := 17 } := by decide

theorem witness_KsTwiceIsOnce :
    (∃ t, exec .ks helloState = .next t ∧ t.sstat = 0x82) ∧ ∃ t, exec .ks { helloState with klen := 15 } = .next t ∧ t.sstat = 0 :=
  ⟨next_of_shown (by decide +kernel), next_of_shown (by decide +kernel)⟩

/-- Two keys that differ from byte 16 on, with `KLEN = 16`. -/
theorem witness_UnusedKeyBytesHaveNoInfluence :
    (∀ j : Fin 32, j.val < helloState.klen.toNat → (helloState.key.set 16 0xFF)[j] = helloState.key[j]) ∧
    helloState.key.set 16 0xFF ≠ helloState.key := by decide +kernel

theorem witness_EblkEncryptsTheBlockRegister : state192.sv = true ∧ State.reset.sv = false := by decide

theorem witness_DblkUndoesEblk : state256.sv = true ∧ State.reset.sv = false := by decide

/-- `SLEN` at `2^AW - 16`, one above it, and the largest. -/
theorem witness_EsizeReportsOrIsRefused :
    8 ≤ Config.standard.aw ∧
    (65520 < 2 ^ Config.standard.aw ∧ ¬ (2 ^ Config.standard.aw - 16 < 65520 ∧ 65520 % 16 ≠ 0)) ∧
    (65521 < 2 ^ Config.standard.aw ∧ 2 ^ Config.standard.aw - 16 < 65521 ∧ 65521 % 16 ≠ 0) ∧
    (65535 < 2 ^ Config.standard.aw ∧ 2 ^ Config.standard.aw - 16 < 65535 ∧ 65535 % 16 ≠ 0) ∧
    helloState.dcap < 2 ^ helloState.cfg.aw ∧ KeyLengthOk helloState := by decide

/-- A message of no whole block, one that does not look padded, and one that does. -/
theorem witness_RecoveredLengthIsExactOrAmbiguous :
    (1 ≤ (hex 5 0x68656C6C6F).length ∧ (hex 5 0x68656C6C6F).length % 16 ≠ 0) ∧
    (1 ≤ (hex 16 0x0302).length ∧ (hex 16 0x0302).length % 16 = 0 ∧ ¬ LooksPadded (hex 16 0x0302) 2) ∧
    LooksPadded (hex 16 0x0202) 2 ∧ LooksPadded (List.replicate 16 0x10) 16 := by
  refine ⟨by decide, ⟨by decide, by decide, fun h => absurd (h.2.2.2 2 (by decide) (by decide)) (by decide)⟩,
    ⟨by decide, by decide, by decide, ?_⟩, ⟨by decide, by decide, by decide, ?_⟩⟩
  · intro j h1 h2; interval_cases j <;> decide
  · intro j h1 h2; interval_cases j <;> decide

theorem witness_OnlyTheFinalBlockDecidesTheLength :
    (List.replicate 32 0x10 : List Byte).length = (List.replicate 16 0 ++ List.replicate 16 0x10 : List Byte).length ∧
    16 ≤ (List.replicate 32 0x10 : List Byte).length ∧
    (List.replicate 32 0x10 : List Byte).drop 16 = (List.replicate 16 0 ++ List.replicate 16 0x10 : List Byte).drop 16 := by
  decide +kernel

/-- A capacity equal to the padded size, a destination that overlaps the source, one that ends at `2^16`; a capacity one too small. -/
theorem witness_PadWritesTheMessageAndItsPadding :
    helloState.mem.wf ∧ encryptedSize helloState.slen ≤ helloState.dcap ∧
    Fits helloState.cfg helloState.src helloState.slen ∧ Fits helloState.cfg helloState.dst (encryptedSize helloState.slen) ∧
    Fits helloState.cfg 0x102 (encryptedSize helloState.slen) ∧ Fits helloState.cfg 65520 (encryptedSize helloState.slen) ∧
    { helloState with dcap := 15 }.dcap < encryptedSize helloState.slen :=
  ⟨by decide +kernel, by decide, fits_standard (by decide), fits_standard (by decide), fits_standard (by decide),
    fits_standard (by decide), by decide⟩

theorem witness_UnpadReportsTheRecoveredLength :
    CiphertextLengthOk paddedState ∧ Fits paddedState.cfg paddedState.src paddedState.slen ∧
    ¬ CiphertextLengthOk { paddedState with slen := 0 } ∧ ¬ CiphertextLengthOk { paddedState with slen := 17 } ∧
    LooksPadded (paddedState.memRead paddedState.src paddedState.slen) 2 := by
  refine ⟨by decide, fits_standard (by decide), by decide, by decide, by decide +kernel, by decide, by decide, ?_⟩
  intro j h1 h2; interval_cases j <;> decide +kernel

theorem witness_EncWritesTheChainedCiphertext :
    helloState.mem.wf ∧ KeyLengthOk helloState ∧ encryptedSize helloState.slen ≤ helloState.dcap ∧
    Fits helloState.cfg helloState.src helloState.slen ∧ Fits helloState.cfg helloState.dst (encryptedSize helloState.slen) ∧
    ¬ KeyLengthOk { helloState with klen := 33 } ∧ KeyLengthOk { helloState with dcap := 15 } ∧
    { helloState with dcap := 15 }.dcap < encryptedSize helloState.slen :=
  ⟨by decide +kernel, by decide, by decide, fits_standard (by decide), fits_standard (by decide), by decide, by decide, by decide⟩

theorem witness_DecWritesTheChainedPlaintext :
    cipherState.mem.wf ∧ CiphertextLengthOk cipherState ∧ KeyLengthOk cipherState ∧ cipherState.slen ≤ cipherState.dcap ∧
    Fits cipherState.cfg cipherState.src cipherState.slen ∧ Fits cipherState.cfg cipherState.dst cipherState.slen ∧
    ¬ CiphertextLengthOk { cipherState with slen := 0 } ∧ ¬ CiphertextLengthOk { cipherState with slen := 15 } ∧
    ¬ KeyLengthOk { cipherState with klen := 0 } ∧ { cipherState with dcap := 15 }.dcap < cipherState.slen :=
  ⟨by decide +kernel, by decide, by decide, by decide, fits_standard (by decide), fits_standard (by decide), by decide,
    by decide, by decide, by decide⟩

theorem witness_CbcDecryptInvertsCbcEncrypt :
    ([] : List Byte).length % 16 = 0 ∧ (List.replicate 80 0 : List Byte).length % 16 = 0 := by decide

theorem witness_MessageRoundTrip :
    (hex 16 0).length = 16 ∧ (hex 24 0).length = 24 ∧ (hex 32 0).length = 32 ∧ 1 ≤ (hex 1 0x00).length := by decide

/-- One block at its exact capacity, decrypted to the end of memory. -/
theorem witness_EncThenDecRecoversTheMessage :
    helloState.mem.wf ∧ (∃ t, exec .enc helloState = .next t ∧ (t.status, t.result) = (0, 16)) ∧ 16 ≤ 16 ∧
    Fits helloState.cfg 65520 16 :=
  ⟨by decide +kernel, next_of_shown (f := fun t => (t.status, t.result)) (by decide +kernel), by decide, fits_standard (by decide)⟩

/-- Program 1 (section 8) from a state with the invariant. -/
theorem witness_EncryptPseudoInstructionEncrypts :
    ({ helloState with host := [] } : State).host = [] ∧ (hex 16 0x000102030405060708090A0B0C0D0E0F).length = 16 ∧
    (hex 16 0).length = 16 ∧ 0x100 < 2 ^ helloState.cfg.aw ∧ 5 < 2 ^ helloState.cfg.aw ∧ 0x200 < 2 ^ helloState.cfg.aw ∧
    16 < 2 ^ helloState.cfg.aw ∧ encryptedSize 5 ≤ 16 ∧ Fits helloState.cfg 0x100 5 ∧ Fits helloState.cfg 0x200 (encryptedSize 5) ∧
    ({ helloState with host := [] } : State).Inv :=
  ⟨rfl, by decide, by decide, by decide, by decide, by decide, by decide, by decide, fits_standard (by decide),
    fits_standard (by decide), { helloState_inv with }⟩

/-- Every instruction completes without an error somewhere: the premise of the statements over all instructions
(StatusIsTheFirstFailingCheck, ResultHoldsTheReportedLength, MessageCommandsDropTheSchedule, OnlyClrChangesOperandRegisters,
CommandsWriteOnlyWhatTheTableSays, WritesStayInTheDestinationRange). -/
theorem witness_every_command_completes :
    (∃ t, exec .esize helloState = .next t ∧ t.status = 0) ∧ (∃ t, exec .enc helloState = .next t ∧ t.status = 0) ∧
    (∃ t, exec .dec cipherState = .next t ∧ t.status = 0) ∧ (∃ t, exec .ks helloState = .next t ∧ t.status = 0) ∧
    (∃ t, exec .eblk state192 = .next t ∧ t.status = 0) ∧ (∃ t, exec .dblk state256 = .next t ∧ t.status = 0) ∧
    (∃ t, exec .pad helloState = .next t ∧ t.status = 0) ∧ (∃ t, exec .unpad paddedState = .next t ∧ t.status = 0) ∧
    (∃ t, exec .clr state256 = .next t ∧ t.status = 0) ∧
    helloState.mem.wf ∧ cipherState.mem.wf ∧ paddedState.mem.wf :=
  ⟨next_of_shown (by decide +kernel), next_of_shown (by decide +kernel), next_of_shown (by decide +kernel),
    next_of_shown (by decide +kernel), next_of_shown (by decide +kernel), next_of_shown (by decide +kernel),
    next_of_shown (by decide +kernel), next_of_shown (by decide +kernel), next_of_shown (by decide +kernel),
    by decide +kernel, by decide +kernel, by decide +kernel⟩

/-- Errors of a command that clears the store and of commands that keep it. -/
theorem witness_ErrorsLeaveEverythingElse :
    (∃ t, exec .dec helloState = .next t ∧ t.status = 2) ∧ (∃ t, exec .enc { helloState with dcap := 15 } = .next t ∧ t.status = 3) ∧
    (∃ t, exec .ks State.reset = .next t ∧ t.status = 1) ∧ (∃ t, exec .pad { helloState with dcap := 0 } = .next t ∧ t.status = 3) ∧
    (∃ t, exec .unpad helloState = .next t ∧ t.status = 2) ∧ ∃ t, exec .dblk helloState = .next t ∧ t.status = 4 :=
  ⟨next_of_shown (by decide +kernel), next_of_shown (by decide +kernel), next_of_shown (by decide +kernel),
    next_of_shown (by decide +kernel), next_of_shown (by decide +kernel), next_of_shown (by decide +kernel)⟩

theorem witness_CachedScheduleDoesNotFollowTheKey :
    31 < Reg.elements .KEY ∧ 0 < Reg.elements .KLEN ∧ state256.sv = true := by decide

/-- A padded size of `2^AW`; ranges one byte past `2^AW`, at the source and at the destination; an unpopulated last byte of the
source; all with the checks of the command passed. -/
theorem witness_EveryCommandHasAnOutcome :
    2 ^ Config.standard.aw ≤ encryptedSize 65521 ∧
    encryptedSize helloState.slen ≤ helloState.dcap ∧ KeyLengthOk helloState ∧
    ¬ Fits helloState.cfg 65532 helloState.slen ∧ ¬ Fits helloState.cfg 65521 (encryptedSize helloState.slen) ∧
    ¬ Fits ⟨16, [(0x104, 1)]⟩ helloState.src helloState.slen ∧
    CiphertextLengthOk cipherState ∧ KeyLengthOk cipherState ∧ cipherState.slen ≤ cipherState.dcap ∧
    ¬ Fits cipherState.cfg 65521 cipherState.slen ∧ ¬ Fits ⟨16, [(0x20F, 1)]⟩ cipherState.src cipherState.slen :=
  ⟨by decide, by decide, by decide, fun h => absurd h.1 (by decide), fun h => absurd h.1 (by decide),
    fun h => absurd (h.2 0x104 (by decide) (by decide)) (by decide), by decide, by decide, by decide,
    fun h => absurd h.1 (by decide), fun h => absurd (h.2 0x20F (by decide) (by decide)) (by decide)⟩

/-- Shares the operands of `ENC` and `PAD` with `helloState` and differs in `BLK`, the schedule, an unused key byte and memory. -/
def otherHelloState : State := { helloState with
  key := helloState.key.set 31 0xFF
  blk := Vector.replicate 16 0xAA
  sstat := 0x82
  mem := loaded 0x100 (hex 6 0x68656C6C6FFF) }

theorem other_reads_as_hello (a : Nat) (h1 : helloState.src ≤ a) (h2 : a < helloState.src + helloState.slen) :
    otherHelloState.readByte a = helloState.readByte a := by
  have h3 : 0x100 ≤ a := h1
  have h4 : a < 0x105 := h2
  interval_cases a <;> decide +kernel

/-- For `ENC`, `otherHelloState`; for `PAD`, that state with another key, `KLEN` and `IV`; for `DEC` and `UNPAD`, states that differ
in `BLK`, for `UNPAD` in `DST` and `DCAP` as well. -/
theorem witness_BufferCommandsReadOnlyTheirOperands :
    otherHelloState.mem.wf ∧ otherHelloState.cfg = helloState.cfg ∧ otherHelloState.keyBytes = helloState.keyBytes ∧
    (∀ a, helloState.src ≤ a → a < helloState.src + helloState.slen → otherHelloState.readByte a = helloState.readByte a) ∧
    (∀ a, helloState.src ≤ a → a < helloState.src + helloState.slen →
      { otherHelloState with klen := 7, iv := Vector.replicate 16 1 }.readByte a = helloState.readByte a) ∧
    otherHelloState.mem ≠ helloState.mem ∧ (∃ t, exec .enc helloState = .next t ∧ t.status = 0) ∧
    (∃ t, exec .pad helloState = .next t ∧ t.status = 0) ∧ (∃ t, exec .dec cipherState = .next t ∧ t.status = 0) ∧
    (∃ t, exec .unpad paddedState = .next t ∧ t.status = 0) ∧
    { cipherState with blk := Vector.replicate 16 1 } ≠ cipherState ∧
    { paddedState with dst := 1, dcap := 2 } ≠ paddedState := by
  refine ⟨by decide +kernel, by decide, by decide +kernel, other_reads_as_hello, other_reads_as_hello, by decide +kernel,
    next_of_shown (by decide +kernel), next_of_shown (by decide +kernel), next_of_shown (by decide +kernel),
    next_of_shown (by decide +kernel), fun h => absurd (congrArg State.blk h) (by decide +kernel),
    fun h => absurd (congrArg State.dst h) (by decide)⟩

end Sys2Proof.Tests
end

section
/-! PROOFS of the family 10_state.md: what the commands and the host's primitives change, and the machine's invariant. -/

namespace Sys2Proof.Machine

/-! ### What a command can do -/

/-- The next states a command can answer, the errors of commands that keep the schedule store and of those that clear it
(60_exceptions.md R201) each as one case. -/
inductive CommandEffect (s : State) : Instr → State → Prop where
  | esize (hn : encryptedSize s.slen < 2 ^ s.cfg.aw) : CommandEffect s .esize (s.finish (encryptedSize s.slen))
  | enc (hk : KeyLengthOk s) (hd : encryptedSize s.slen ≤ s.dcap) (hsrc : Fits s.cfg s.src s.slen)
      (hdst : Fits s.cfg s.dst (encryptedSize s.slen)) :
      CommandEffect s .enc
        ((s.memWrite s.dst (encryptMessage (s.memRead s.src s.slen) s.keyBytes s.iv)).clearSchedule.finish
          (encryptedSize s.slen))
  | dec (hc : CiphertextLengthOk s) (hk : KeyLengthOk s) (hd : s.slen ≤ s.dcap) (hsrc : Fits s.cfg s.src s.slen)
      (hdst : Fits s.cfg s.dst s.slen) :
      CommandEffect s .dec
        ((s.memWrite s.dst (decryptMessage (s.memRead s.src s.slen) s.keyBytes s.iv)).clearSchedule.finish
          (recoveredLength (decryptMessage (s.memRead s.src s.slen) s.keyBytes s.iv)))
  | ks (hk : KeyLengthOk s) :
      CommandEffect s .ks
        ((s.keepSchedule (roundKeys s.keyBytes) (sBoxes s.keyBytes) (s.klen.toNat / 8)).finish 0)
  | eblk (hv : s.sv = true) : CommandEffect s .eblk ({ s with blk := encryptBlock s.k s.sb s.blk }.finish 0)
  | dblk (hv : s.sv = true) : CommandEffect s .dblk ({ s with blk := decryptBlock s.k s.sb s.blk }.finish 0)
  | pad (hd : encryptedSize s.slen ≤ s.dcap) (hsrc : Fits s.cfg s.src s.slen)
      (hdst : Fits s.cfg s.dst (encryptedSize s.slen)) :
      CommandEffect s .pad
        ((s.memWrite s.dst (padInsert (s.memRead s.src s.slen))).finish (encryptedSize s.slen))
  | unpad (hc : CiphertextLengthOk s) (hsrc : Fits s.cfg s.src s.slen) :
      CommandEffect s .unpad (s.finish (recoveredLength (s.memRead s.src s.slen)))
  | clr : CommandEffect s .clr
      (({ s with
        key := Vector.replicate 32 0
        klen := 0
        iv := Vector.replicate 16 0
        blk := Vector.replicate 16 0 } : State).clearSchedule.finish 0)
  | raised {i : Instr} (e : CmdError) (hi : i = .eblk ∨ i = .dblk ∨ i = .pad ∨ i = .unpad) :
      CommandEffect s i (s.raise e)
  | raisedAndCleared {i : Instr} (e : CmdError) (hi : i = .ks ∨ i = .enc ∨ i = .dec) :
      CommandEffect s i (s.clearSchedule.raise e)

theorem onRanges_pair_eq_next {c : Config} {x n y m : Nat} {t u : State}
    (h : onRanges c [(x, n), (y, m)] t = .next u) : u = t ∧ Fits c x n ∧ Fits c y m := by
  obtain ⟨hu, hf⟩ := onRanges_eq_next h
  exact ⟨hu, by simpa using hf⟩

/-- A command that answers next has one of the effects listed. -/
theorem exec_effect {i : Instr} {s t : State} (h : exec i s = .next t) : CommandEffect s i t := by
  cases i with
  | esize =>
    rcases execEsize_cases s with ⟨hn, he⟩ | ⟨-, he⟩ <;> cases he.symm.trans h
    exact .esize hn
  | enc =>
    rcases execEnc_cases s with ⟨-, he⟩ | ⟨-, -, he⟩ | ⟨hk, hd, he⟩
    · cases he.symm.trans h
      exact .raisedAndCleared _ (by simp)
    · cases he.symm.trans h
      exact .raisedAndCleared _ (by simp)
    · obtain ⟨rfl, hsrc, hdst⟩ := onRanges_pair_eq_next (he.symm.trans h)
      exact .enc hk hd hsrc hdst
  | dec =>
    rcases execDec_cases s with ⟨-, he⟩ | ⟨-, -, he⟩ | ⟨-, -, -, he⟩ | ⟨hc, hk, hd, he⟩
    · cases he.symm.trans h
      exact .raisedAndCleared _ (by simp)
    · cases he.symm.trans h
      exact .raisedAndCleared _ (by simp)
    · cases he.symm.trans h
      exact .raisedAndCleared _ (by simp)
    · obtain ⟨rfl, hsrc, hdst⟩ := onRanges_pair_eq_next (he.symm.trans h)
      exact .dec hc hk hd hsrc hdst
  | ks =>
    rcases execKs_cases s with ⟨hk, he⟩ | ⟨-, he⟩ <;> cases he.symm.trans h
    · exact .ks hk
    · exact .raisedAndCleared _ (by simp)
  | eblk =>
    rcases execEblk_cases s with ⟨hv, he⟩ | ⟨-, he⟩ <;> cases he.symm.trans h
    · exact .eblk hv
    · exact .raised _ (by simp)
  | dblk =>
    rcases execDblk_cases s with ⟨hv, he⟩ | ⟨-, he⟩ <;> cases he.symm.trans h
    · exact .dblk hv
    · exact .raised _ (by simp)
  | pad =>
    rcases execPad_cases s with ⟨-, he⟩ | ⟨hd, he⟩
    · cases he.symm.trans h
      exact .raised _ (by simp)
    · obtain ⟨rfl, hsrc, hdst⟩ := onRanges_pair_eq_next (he.symm.trans h)
      exact .pad hd hsrc hdst
  | unpad =>
    rcases execUnpad_cases s with ⟨-, he⟩ | ⟨hc, he⟩
    · cases he.symm.trans h
      exact .raised _ (by simp)
    · obtain ⟨rfl, hf⟩ := onRanges_eq_next (he.symm.trans h)
      exact .unpad hc (by simpa using hf)
  | clr =>
    cases h
    exact .clr

/-- `DEC` writes as many bytes as it reads. -/
theorem length_decryptMessage_memRead (s : State) (hc : CiphertextLengthOk s) :
    (decryptMessage (s.memRead s.src s.slen) s.keyBytes s.iv).length = s.slen := by
  rw [length_decryptMessage _ _ _ (by simpa using hc.2), State.length_memRead]

/-! ### Frames of the commands -/

/-- Settles O41: every effect but that of `CLR` writes none of the operand registers, and `CLR` writes `KLEN`, `KEY` and
`IV` alone of them. -/
theorem onlyClrChangesOperandRegisters : Obligations.OnlyClrChangesOperandRegisters := by
  intro i s t h
  cases exec_effect h with
  | clr => exact ⟨rfl, rfl, rfl, rfl, rfl, fun hi => absurd rfl hi⟩
  | _ => exact ⟨rfl, rfl, rfl, rfl, rfl, fun _ => ⟨rfl, rfl, rfl⟩⟩

/-- Settles O42: each effect writes only the columns of its row. -/
theorem commandsWriteOnlyWhatTheTableSays : Obligations.CommandsWriteOnlyWhatTheTableSays := by
  intro i s t h
  cases exec_effect h with
  | raised e hi => exact ⟨fun _ _ _ => rfl, fun _ _ _ _ => ⟨rfl, rfl, rfl⟩, fun _ _ _ => rfl, rfl, rfl, rfl, rfl⟩
  | raisedAndCleared e hi =>
    refine ⟨fun _ _ _ => rfl, fun hks henc hdec _ => ?_, fun _ _ _ => rfl, rfl, rfl, rfl, rfl⟩
    exact absurd hi (by simp [hks, henc, hdec])
  | _ => simp [SameSchedule]

/-! ### RESULT -/

theorem State.memRead_memWrite_same (s : State) (h : s.mem.wf) (x : Nat) (v : List Byte) :
    (s.memWrite x v).memRead x v.length = v := by
  apply List.ext_getElem (by simp)
  intro j hj hj'
  simp [State.memRead, State.readByte_memWrite s h, hj']

/-- Settles O38: each effect names its `RESULT`; what `DEC` wrote is what is read back from `DST`. -/
theorem resultHoldsTheReportedLength : Obligations.ResultHoldsTheReportedLength := by
  intro i s t hm h
  cases exec_effect h with
  | esize | enc | pad => simp [statusOk]
  | ks | eblk | dblk | clr => simp
  | dec hc hk hd hsrc hdst =>
    have hlen := length_decryptMessage_memRead s hc
    have hread := State.memRead_memWrite_same s hm s.dst (decryptMessage (s.memRead s.src s.slen) s.keyBytes s.iv)
    have hle := recoveredLength_le (decryptMessage (s.memRead s.src s.slen) s.keyBytes s.iv)
    rw [hlen] at hread hle
    refine ⟨by simp [statusOk], by simp, by simp, fun _ _ => ⟨?_, hle⟩, by simp⟩
    exact congrArg recoveredLength hread.symm
  | unpad hc hsrc =>
    have hle := recoveredLength_le (s.memRead s.src s.slen)
    rw [State.length_memRead] at hle
    simp [statusOk, hle]
  | raised e hi | raisedAndCleared e hi =>
    have hne : e.code ≠ 0 := e.code_ne_ok
    exact ⟨fun _ => rfl, fun _ => rfl, fun h0 => absurd h0 hne, fun h0 => absurd h0 hne, fun h0 => absurd h0 hne⟩

/-! ### Key bytes above `KLEN` -/

/-- Two results that are the same next state but for the key, or the same refusal. -/
def SameButKey (key' : Vector Byte 32) (r r' : Result) : Prop :=
  (∃ t, r = .next t ∧ r' = .next { t with key := key' }) ∨ (∃ f, r = .refused f ∧ r' = .refused f)

theorem sameButKey_next (key' : Vector Byte 32) (t : State) : SameButKey key' (.next t) (.next { t with key := key' }) :=
  .inl ⟨t, rfl, rfl⟩

theorem sameButKey_onRanges (key' : Vector Byte 32) (c : Config) (rs : List (Nat × Nat)) (t : State) :
    SameButKey key' (onRanges c rs t) (onRanges c rs { t with key := key' }) := by
  unfold onRanges
  cases rs.findSome? (rangeRefusal c) with
  | none => exact sameButKey_next key' t
  | some f => exact .inr ⟨f, rfl, rfl⟩

/-- The key a command works with has no byte at or above `KLEN` (10_state.md R30). -/
theorem State.keyBytes_congr {s : State} {key' : Vector Byte 32}
    (h : ∀ j : Fin 32, j.val < s.klen.toNat → key'[j] = s.key[j]) : { s with key := key' }.keyBytes = s.keyBytes := by
  apply List.ext_getElem (by simp [State.keyBytes])
  intro j hj hj'
  have hlt : j < s.klen.toNat ∧ j < 32 := by simpa [State.keyBytes] using hj'
  simpa [State.keyBytes] using h ⟨j, hlt.2⟩ hlt.1

theorem exec_sameButKey {s : State} {key' : Vector Byte 32} (hkey : { s with key := key' }.keyBytes = s.keyBytes) {i : Instr}
    (hi : i ≠ .clr) : SameButKey key' (exec i s) (exec i { s with key := key' }) := by
  have hsv : { s with key := key' }.sv = s.sv := rfl
  cases i with
  | esize =>
    simp only [exec, execEsize]
    split
    · exact sameButKey_next _ _
    · exact .inr ⟨_, rfl, rfl⟩
  | enc =>
    simp only [exec, execEnc, hkey]
    split
    · exact sameButKey_next _ _
    · split
      · exact sameButKey_next _ _
      · exact sameButKey_onRanges _ _ _ _
  | dec =>
    simp only [exec, execDec, hkey]
    split
    · exact sameButKey_next _ _
    · split
      · exact sameButKey_next _ _
      · split
        · exact sameButKey_next _ _
        · exact sameButKey_onRanges _ _ _ _
  | ks =>
    simp only [exec, execKs, hkey]
    split <;> exact sameButKey_next _ _
  | eblk =>
    simp only [exec, execEblk, hsv]
    split <;> exact sameButKey_next _ _
  | dblk =>
    simp only [exec, execDblk, hsv]
    split <;> exact sameButKey_next _ _
  | pad =>
    simp only [exec, execPad]
    split
    · exact sameButKey_next _ _
    · exact sameButKey_onRanges _ _ _ _
  | unpad =>
    simp only [exec, execUnpad]
    split
    · exact sameButKey_onRanges _ _ _ _
    · exact sameButKey_next _ _
  | clr => exact absurd rfl hi

/-- Settles O18: the commands see the key through `keyBytes` alone, and `CLR` overwrites all of it. -/
theorem unusedKeyBytesHaveNoInfluence : Obligations.UnusedKeyBytesHaveNoInfluence := by
  intro s key' h
  exact ⟨fun i hi => exec_sameButKey (State.keyBytes_congr h) hi, rfl⟩

/-! ### What the buffer commands read -/

/-- A command that answers the first result answers the second as well, with the same report and, on success, the same
`n` bytes at `x`. -/
def SameReport (x n : Nat) (r r' : Result) : Prop :=
  ∀ t, r = .next t → ∃ t', r' = .next t' ∧ t'.status = t.status ∧ t'.result = t.result ∧
    (t.status = 0 → ∀ a, x ≤ a → a < x + n → t'.readByte a = t.readByte a)

theorem sameReport_raise (x n : Nat) (s s' : State) (e : CmdError) :
    SameReport x n (.next (s.raise e)) (.next (s'.raise e)) := by
  rintro t ⟨⟩
  exact ⟨_, rfl, rfl, rfl, fun h => absurd h e.code_ne_ok⟩

theorem sameReport_onRanges {x n : Nat} {u u' : State} (c : Config) (rs : List (Nat × Nat)) (hstatus : u'.status = u.status)
    (hresult : u'.result = u.result) (hbytes : ∀ a, x ≤ a → a < x + n → u'.readByte a = u.readByte a) :
    SameReport x n (onRanges c rs u) (onRanges c rs u') := by
  intro t ht
  obtain ⟨rfl, hf⟩ := onRanges_eq_next ht
  exact ⟨u', onRanges_of_fits hf, hstatus, hresult, fun _ => hbytes⟩

/-- Two states of one configuration with canonical memory that agree on `SRC`, `SLEN` and the source bytes: all that `UNPAD`
reads (10_state.md R41). -/
structure SameSource (s s' : State) : Prop where
  wf : s.mem.wf
  wf' : s'.mem.wf
  cfg : s'.cfg = s.cfg
  src : s'.src = s.src
  slen : s'.slen = s.slen
  bytes : ∀ a, s.src ≤ a → a < s.src + s.slen → s'.readByte a = s.readByte a

/-- Two states that agree on the destination registers as well: all that `PAD` reads. -/
structure SameBuffers (s s' : State) : Prop extends SameSource s s' where
  dst : s'.dst = s.dst
  dcap : s'.dcap = s.dcap

/-- Two states that agree on the key and the IV as well: all that `ENC` and `DEC` read. -/
structure SameMessageOperands (s s' : State) : Prop extends SameBuffers s s' where
  klen : s'.klen = s.klen
  iv : s'.iv = s.iv
  keyBytes : s'.keyBytes = s.keyBytes

section Reads

variable {s s' : State}

theorem SameSource.memRead (h : SameSource s s') : s'.memRead s.src s.slen = s.memRead s.src s.slen :=
  List.map_congr_left fun _ hj => h.bytes _ (Nat.le_add_right _ _) (Nat.add_lt_add_left (List.mem_range.1 hj) _)

/-- The same string stored at the same place reads the same in both states. -/
theorem SameSource.readByte_memWrite (h : SameSource s s') (x : Nat) (v : List Byte) (a : Nat) (h1 : x ≤ a)
    (h2 : a < x + v.length) : (s'.memWrite x v).readByte a = (s.memWrite x v).readByte a := by
  rw [State.readByte_memWrite s' h.wf', State.readByte_memWrite s h.wf, if_pos ⟨h1, h2⟩, if_pos ⟨h1, h2⟩]

theorem SameSource.unpad_sameReport (h : SameSource s s') : SameReport s.dst 0 (exec .unpad s) (exec .unpad s') := by
  simp only [exec, execUnpad, h.cfg, h.src, h.slen, h.memRead]
  split
  · exact sameReport_onRanges _ _ rfl rfl (fun a h1 h2 => by omega)
  · exact sameReport_raise _ _ _ _ _

theorem SameBuffers.pad_sameReport (h : SameBuffers s s') :
    SameReport s.dst (encryptedSize s.slen) (exec .pad s) (exec .pad s') := by
  simp only [exec, execPad, h.cfg, h.src, h.slen, h.dst, h.dcap, h.memRead]
  split
  · exact sameReport_raise _ _ _ _ _
  · exact sameReport_onRanges _ _ rfl rfl
      (fun a h1 h2 => h.readByte_memWrite s.dst (padInsert (s.memRead s.src s.slen)) a h1 (by simpa using h2))

theorem SameMessageOperands.enc_sameReport (h : SameMessageOperands s s') :
    SameReport s.dst (encryptedSize s.slen) (exec .enc s) (exec .enc s') := by
  simp only [exec, execEnc, h.cfg, h.src, h.slen, h.dst, h.dcap, h.klen, h.iv, h.keyBytes, h.memRead]
  split
  · exact sameReport_raise _ _ _ _ _
  · split
    · exact sameReport_raise _ _ _ _ _
    · exact sameReport_onRanges _ _ rfl rfl (fun a h1 h2 =>
        h.readByte_memWrite s.dst (encryptMessage (s.memRead s.src s.slen) s.keyBytes s.iv) a h1 (by simpa using h2))

theorem SameMessageOperands.dec_sameReport (h : SameMessageOperands s s') :
    SameReport s.dst s.slen (exec .dec s) (exec .dec s') := by
  simp only [exec, execDec, h.cfg, h.src, h.slen, h.dst, h.dcap, h.klen, h.iv, h.keyBytes, h.memRead]
  split
  · exact sameReport_raise _ _ _ _ _
  · next hc =>
    split
    · exact sameReport_raise _ _ _ _ _
    · split
      · exact sameReport_raise _ _ _ _ _
      · have hlen := length_decryptMessage_memRead s ((ciphertextLengthLegal_iff s.slen).1 (by simpa using hc))
        exact sameReport_onRanges _ _ rfl rfl (fun a h1 h2 =>
          h.readByte_memWrite s.dst (decryptMessage (s.memRead s.src s.slen) s.keyBytes s.iv) a h1 (by rwa [hlen]))

end Reads

/-- Settles O46: each command's report is a function of the operands its row of the table marks as read. -/
theorem bufferCommandsReadOnlyTheirOperands : Obligations.BufferCommandsReadOnlyTheirOperands := by
  intro i s s' t hi hwf hwf' hcfg hsrc hslen hdest hkey hbytes ht
  have hsource : SameSource s s' := ⟨hwf, hwf', hcfg, hsrc, hslen, hbytes⟩
  have hbuffers (hne : i ≠ .unpad) : SameBuffers s s' := ⟨hsource, (hdest hne).1, (hdest hne).2⟩
  have hmessage (hne : i ≠ .unpad) (hm : i = .enc ∨ i = .dec) : SameMessageOperands s s' :=
    have ⟨hklen, hiv, hkb⟩ := hkey hm
    ⟨hbuffers hne, hklen, hiv, hkb⟩
  obtain rfl | rfl | rfl | rfl := hi
  · obtain ⟨t', ht', hst, hr, hb⟩ := (hmessage (by simp) (.inl rfl)).enc_sameReport t ht
    exact ⟨t', ht', hst, hr, fun h0 _ => hb h0⟩
  · obtain ⟨t', ht', hst, hr, hb⟩ := (hmessage (by simp) (.inr rfl)).dec_sameReport t ht
    exact ⟨t', ht', hst, hr, fun h0 _ => hb h0⟩
  · obtain ⟨t', ht', hst, hr, hb⟩ := (hbuffers (by simp)).pad_sameReport t ht
    exact ⟨t', ht', hst, hr, fun h0 _ => hb h0⟩
  · obtain ⟨t', ht', hst, hr, -⟩ := hsource.unpad_sameReport t ht
    exact ⟨t', ht', hst, hr, fun _ hne => absurd rfl hne⟩

/-! ### The invariant, one lemma per operation -/

section Invariant

variable {s : State} (h : s.Inv)
include h

theorem State.Inv.finish {r : Nat} (hr : r < 2 ^ s.cfg.aw) : (s.finish r).Inv :=
  { h with resultInRange := hr, statusKnown := Nat.zero_le _ }

theorem State.Inv.finish_zero : (s.finish 0).Inv := h.finish (Nat.two_pow_pos _)

theorem State.Inv.raise (e : CmdError) : (s.raise e).Inv :=
  { h with resultInRange := Nat.two_pow_pos _, statusKnown := e.code_le }

theorem State.Inv.clearSchedule : s.clearSchedule.Inv :=
  { h with
    sstatKnown := .inl rfl
    scheduleOfSomeKey := fun hv => by simp at hv
    scheduleEmpty := fun _ => ⟨by simp, by simp, rfl⟩ }

/-- A legal key's schedule has the `SSTAT` of its length and is that of a key of `8 * KN` bytes (10_state.md R25, R36). -/
theorem State.Inv.keepSchedule (hk : KeyLengthOk s) :
    (s.keepSchedule (roundKeys s.keyBytes) (sBoxes s.keyBytes) (s.klen.toNat / 8)).Inv :=
  { h with
    sstatKnown := by
      obtain hk | hk | hk := hk <;> simp [hk, sstatValid_two, sstatValid_three, sstatValid_four]
    scheduleOfSomeKey := fun _ => by
      refine ⟨s.keyBytes, ?_, rfl, rfl⟩
      rw [State.kn_keepSchedule _ _ _ (by omega)]
      simp only [State.keyBytes, List.length_take, Vector.length_toList]
      omega
    scheduleEmpty := fun hv => by simp at hv }

/-- A string stored in a range that fits keeps memory canonical and in the populated address space. -/
theorem State.Inv.memWrite {x : Nat} {v : List Byte} (hf : Fits s.cfg x v.length) : (s.memWrite x v).Inv :=
  { h with
    memCanonical := Memory.storeAll_wf h.memCanonical x v
    memInSpace := fun c hc => by
      rcases Memory.mem_storeAll hc with hc | ⟨h1, h2⟩
      · exact h.memInSpace c hc
      · exact ⟨Nat.lt_of_lt_of_le h2 hf.1, hf.2 c.1 h1 h2⟩ }

theorem State.Inv.reply (v : Nat) : (s.reply v).Inv := { h with }

theorem State.Inv.hostReset : (hostReset s).Inv where
  awLarge := h.awLarge
  memCanonical := .nil
  memInSpace := by simp
  resultInRange := Nat.two_pow_pos _
  srcInRange := Nat.two_pow_pos _
  slenInRange := Nat.two_pow_pos _
  dstInRange := Nat.two_pow_pos _
  dcapInRange := Nat.two_pow_pos _
  statusKnown := Nat.zero_le _
  sstatKnown := .inl rfl
  scheduleOfSomeKey := fun hv => by simp [State.sv] at hv
  scheduleEmpty := fun _ => ⟨by simp, by simp, rfl⟩

/-- An address or a length is stored truncated (10_state.md R21); the other registers are under no bound. -/
theorem State.Inv.putReg (r : Reg) (i v : Nat) : (s.putReg r i v).Inv := by
  have hv : truncate s.cfg v < 2 ^ s.cfg.aw := Nat.mod_lt _ (Nat.two_pow_pos _)
  cases r with
  | STATUS | SSTAT | RESULT => exact h
  | CMD | KLEN | KEY | IV | BLK => exact { h with }
  | SRC => exact { h with srcInRange := hv }
  | SLEN => exact { h with slenInRange := hv }
  | DST => exact { h with dstInRange := hv }
  | DCAP => exact { h with dcapInRange := hv }

/-! ### The invariant along a step -/

theorem State.Inv.exec {i : Instr} {t : State} (ht : exec i s = .next t) : t.Inv := by
  have hdcap := h.dcapInRange
  have hslen := h.slenInRange
  cases exec_effect ht with
  | esize hn => exact h.finish hn
  | enc _ hd _ hdst => exact (h.memWrite (by simpa using hdst)).clearSchedule.finish (hd.trans_lt hdcap)
  | dec hc _ _ _ hdst =>
    have hlen := length_decryptMessage_memRead s hc
    have hle := recoveredLength_le (decryptMessage (s.memRead s.src s.slen) s.keyBytes s.iv)
    exact (h.memWrite (by rwa [hlen])).clearSchedule.finish ((hle.trans_eq hlen).trans_lt hslen)
  | ks hk => exact (h.keepSchedule hk).finish_zero
  | eblk | dblk => exact State.Inv.finish_zero { h with }
  | pad hd _ hdst => exact (h.memWrite (by simpa using hdst)).finish (hd.trans_lt hdcap)
  | unpad _ _ =>
    have hle := recoveredLength_le (s.memRead s.src s.slen)
    rw [State.length_memRead] at hle
    exact h.finish (hle.trans_lt hslen)
  | clr => exact State.Inv.finish_zero (State.Inv.clearSchedule { h with })
  | raised e _ => exact h.raise e
  | raisedAndCleared e _ => exact h.clearSchedule.raise e

theorem State.Inv.issue {c : Byte} {t : State} (ht : issue c s = .next t) : t.Inv := by
  have hcmd : State.Inv { s with cmd := c } := { h with }
  rcases issue_cases c s with ⟨i, -, hi⟩ | ⟨e, -, he⟩
  · exact hcmd.exec (hi.symm.trans ht)
  · cases he.symm.trans ht
    exact hcmd.raise _

theorem State.Inv.perform {op : HostOp} {t : State} (ht : perform op s = .next t) : t.Inv := by
  rcases perform_cases ht with ⟨i, v, -, -, hi⟩ | ⟨r, i, v, -, -, -, rfl⟩ | ⟨r, i, -, -, rfl⟩ | ⟨x, v, -, hx, rfl⟩ |
    ⟨x, -, -, rfl⟩ | ⟨-, rfl⟩
  · exact h.issue hi
  · exact h.putReg r i v
  · exact h.reply _
  · obtain ⟨hlt, hpop⟩ := (hostAddressFault_eq_none_iff s.cfg x).1 hx
    refine h.memWrite ⟨hlt, fun a h1 h2 => ?_⟩
    obtain rfl : a = x := by simp at h2; omega
    exact hpop
  · exact h.reply _
  · exact h.hostReset

end Invariant

/-- Settles O9: each primitive of the host keeps the invariant, and an idle step changes nothing. -/
theorem stepKeepsTheInvariant : Obligations.StepKeepsTheInvariant := by
  intro s t h ht
  cases hh : s.host with
  | nil =>
    cases (step_idle hh).symm.trans ht
    exact h
  | cons op rest =>
    have hrest : State.Inv { s with host := rest } := { h with }
    exact hrest.perform ((step_pending hh).symm.trans ht)

/-! ### Reset -/

/-- Reset leaves zero in every register, from any state (10_state.md R43). -/
theorem allRegistersZero_hostReset (s : State) : AllRegistersZero (hostReset s) where
  cmd := rfl
  status := rfl
  sstat := rfl
  klen := rfl
  result := rfl
  src := rfl
  slen := rfl
  dst := rfl
  dcap := rfl
  key := by simp
  iv := by simp
  blk := by simp
  k := by simp
  sb := by simp

theorem allRegistersZero_reset : AllRegistersZero State.reset :=
  { allRegistersZero_hostReset State.reset with }

/-- Settles O6: both reset states have every register zero, and the reset primitive answers the second. -/
theorem resetZeroesEveryRegister : Obligations.ResetZeroesEveryRegister :=
  ⟨allRegistersZero_reset, fun s rest hh =>
    ⟨hostReset { s with host := rest }, by simp [step_pending hh, perform], allRegistersZero_hostReset _, rfl, rfl, rfl⟩⟩

/-- Settles O8: every bound is met by 0, no memory is listed, and the schedule store is empty. -/
theorem invariantHoldsAtReset : Obligations.InvariantHoldsAtReset where
  awLarge := by decide
  memCanonical := .nil
  memInSpace := by simp [State.reset]
  resultInRange := Nat.two_pow_pos _
  srcInRange := Nat.two_pow_pos _
  slenInRange := Nat.two_pow_pos _
  dstInRange := Nat.two_pow_pos _
  dcapInRange := Nat.two_pow_pos _
  statusKnown := Nat.zero_le _
  sstatKnown := .inl rfl
  scheduleOfSomeKey := fun hv => by simp [State.sv, State.reset] at hv
  scheduleEmpty := fun _ => ⟨allRegistersZero_reset.k, allRegistersZero_reset.sb, rfl⟩

/-! ### Commands straight after reset -/

theorem decodeWord_encode (i : Instr) : decodeWord (encode i) = .ok i := by cases i <;> decide

theorem issue_encode (i : Instr) (s : State) : issue (encode i) s = exec i { s with cmd := encode i } := by
  simp [issue, decodeWord_encode, State.putReg]

theorem toList_getD {n i : Nat} (w : Vector Byte n) (hi : i < n) : w.toList.getD i 0 = w[i] := by simp [hi]

theorem AllRegistersZero.getReg {s : State} (h : AllRegistersZero s) (r : Reg) {i : Nat} (hi : i < r.elements) :
    s.getReg r i = 0 := by
  cases r with
  | KEY => exact congrArg BitVec.toNat ((toList_getD s.key hi).trans (h.key ⟨i, hi⟩))
  | IV => exact congrArg BitVec.toNat ((toList_getD s.iv hi).trans (h.iv ⟨i, hi⟩))
  | BLK => exact congrArg BitVec.toNat ((toList_getD s.blk hi).trans (h.blk ⟨i, hi⟩))
  | _ => simp [State.getReg, h.cmd, h.status, h.sstat, h.klen, h.result, h.src, h.slen, h.dst, h.dcap]

section FirstCheck

variable {s : State}

theorem execKs_of_not_keyLengthOk (h : ¬ KeyLengthOk s) :
    exec .ks s = .next (s.clearSchedule.raise .invalidKeyLength) :=
  ((execKs_cases s).resolve_left fun ⟨hk, _⟩ => h hk).2

theorem execEnc_of_not_keyLengthOk (h : ¬ KeyLengthOk s) :
    exec .enc s = .next (s.clearSchedule.raise .invalidKeyLength) := by
  rcases execEnc_cases s with ⟨-, he⟩ | ⟨hk, -⟩ | ⟨hk, -⟩
  · exact he
  · exact absurd hk h
  · exact absurd hk h

theorem execDec_of_not_ciphertextLengthOk (h : ¬ CiphertextLengthOk s) :
    exec .dec s = .next (s.clearSchedule.raise .invalidCiphertextLength) := by
  rcases execDec_cases s with ⟨-, he⟩ | ⟨hc, -⟩ | ⟨hc, -⟩ | ⟨hc, -⟩
  · exact he
  · exact absurd hc h
  · exact absurd hc h
  · exact absurd hc h

theorem execEblk_of_not_sv (h : s.sv = false) : exec .eblk s = .next (s.raise .noSchedule) :=
  ((execEblk_cases s).resolve_left fun ⟨hv, _⟩ => by simp [h] at hv).2

theorem execDblk_of_not_sv (h : s.sv = false) : exec .dblk s = .next (s.raise .noSchedule) :=
  ((execDblk_cases s).resolve_left fun ⟨hv, _⟩ => by simp [h] at hv).2

theorem execUnpad_of_not_ciphertextLengthOk (h : ¬ CiphertextLengthOk s) :
    exec .unpad s = .next (s.raise .invalidCiphertextLength) :=
  ((execUnpad_cases s).resolve_right fun ⟨hc, _⟩ => h hc).2

theorem execEsize_of_lt (h : encryptedSize s.slen < 2 ^ s.cfg.aw) :
    exec .esize s = .next (s.finish (encryptedSize s.slen)) :=
  ((execEsize_cases s).resolve_right fun ⟨hn, _⟩ => hn h).2

theorem execPad_of_fits (hd : encryptedSize s.slen ≤ s.dcap) (hsrc : Fits s.cfg s.src s.slen)
    (hdst : Fits s.cfg s.dst (encryptedSize s.slen)) :
    exec .pad s =
      .next ((s.memWrite s.dst (padInsert (s.memRead s.src s.slen))).finish (encryptedSize s.slen)) := by
  rcases execPad_cases s with ⟨hd', -⟩ | ⟨-, he⟩
  · exact absurd hd' (Nat.not_lt.2 hd)
  · exact he.trans (onRanges_of_fits (by simpa using ⟨hsrc, hdst⟩))

end FirstCheck

theorem fits_zero_zero (c : Config) : Fits c 0 0 := ⟨Nat.zero_le _, fun _ _ h => absurd h (Nat.not_lt_zero _)⟩

/-- Settles O7: with every operand zero, each command but `ESIZE` and `PAD` fails its first check, and those two need 0
bytes, a range that fits whatever is populated. -/
theorem commandsStraightAfterReset : Obligations.CommandsStraightAfterReset := by
  intro c _
  have hzero : AllRegistersZero { State.reset with cfg := c } := { allRegistersZero_reset with }
  have hkey : ¬ KeyLengthOk State.reset := by decide
  have hlen : ¬ CiphertextLengthOk State.reset := by decide
  have hsv : State.reset.sv = false := by decide
  simp only [issue_encode]
  exact ⟨fun r i => hzero.getReg r,
    ⟨_, execKs_of_not_keyLengthOk hkey, rfl⟩,
    ⟨_, execEnc_of_not_keyLengthOk hkey, rfl⟩,
    ⟨_, execDec_of_not_ciphertextLengthOk hlen, rfl⟩,
    ⟨_, execEblk_of_not_sv hsv, rfl⟩,
    ⟨_, execDblk_of_not_sv hsv, rfl⟩,
    ⟨_, execEsize_of_lt (Nat.two_pow_pos _), rfl, rfl⟩,
    ⟨_, execPad_of_fits (Nat.le_refl _) (fits_zero_zero c) (fits_zero_zero c), rfl, rfl⟩,
    ⟨_, execUnpad_of_not_ciphertextLengthOk hlen, rfl⟩⟩

/-! ### Register writes and reads -/

theorem perform_write {r : Reg} {i : Nat} (hr : r ≠ .CMD) (hi : i < r.elements) (v : Nat) (s : State) :
    perform (.write r i v) s = .next (s.putReg r i v) := by simp [perform, hostWrite, hr, hi]

theorem perform_read {r : Reg} {i : Nat} (hi : i < r.elements) (s : State) :
    perform (.read r i) s = .next (s.reply (s.getReg r i)) := by simp [perform, hostRead, hi]

/-- An element of a byte register after an element was written. -/
theorem getD_setIfInBounds {n : Nat} (w : Vector Byte n) (i j v : Nat) (hi : i < n) :
    (((w.setIfInBounds i (BitVec.ofNat 8 v)).toList.getD j 0).toNat) =
      if i = j then v % 2 ^ 8 else (w.toList.getD j 0).toNat := by
  by_cases hij : i = j
  · subst hij
    simp [hi]
  · simp [hij, List.getD_eq_getElem?_getD]

/-- Reading the element written: the value truncated to its width (10_state.md R21). -/
theorem State.getReg_putReg_same (s : State) {r : Reg} {i : Nat} (v : Nat) (hi : i < r.elements)
    (hstatus : r ≠ .STATUS) (hsstat : r ≠ .SSTAT) (hresult : r ≠ .RESULT) :
    (s.putReg r i v).getReg r i = v % 2 ^ r.width s.cfg := by
  cases r with
  | STATUS | SSTAT | RESULT => contradiction
  | CMD | KLEN => simp [State.putReg, State.getReg, Reg.width]
  | SRC | SLEN | DST | DCAP => rfl
  | KEY | IV | BLK => exact (getD_setIfInBounds _ i i v hi).trans (if_pos rfl)

/-- Reading any other element. -/
theorem State.getReg_putReg_of_ne (s : State) {r r' : Reg} {i i' : Nat} (v : Nat) (hi : i < r.elements)
    (hi' : i' < r'.elements) (hne : r' ≠ r ∨ i' ≠ i) :
    (s.putReg r i v).getReg r' i' = s.getReg r' i' := by
  by_cases hr : r' = r
  · subst hr
    have hii : i ≠ i' := fun h => hne.elim (fun h' => h' rfl) (fun h' => h' h.symm)
    cases r' with
    | KEY | IV | BLK => exact (getD_setIfInBounds _ i i' v hi).trans (if_neg hii)
    | _ => simp only [Reg.elements] at hi hi'; omega
  · cases r <;> cases r' <;> simp_all [State.putReg, State.getReg]

theorem State.putReg_of_readOnly (s : State) {r : Reg} (hr : r = .STATUS ∨ r = .SSTAT ∨ r = .RESULT) (i v : Nat) :
    s.putReg r i v = s := by
  obtain rfl | rfl | rfl := hr <;> rfl

/-- Settles O10: the write is `putReg`, which the read sees at its own element and nowhere else. -/
theorem hostWriteThenReadReturnsTruncated : Obligations.HostWriteThenReadReturnsTruncated := by
  intro s r i v rest hcmd hstatus hsstat hresult hi hh
  have hwrite := (step_pending hh).trans (perform_write hcmd hi v _)
  have hhost : (State.putReg { s with host := .read r i :: rest } r i v).host = .read r i :: rest := by simp
  have hread := (step_pending hhost).trans (perform_read hi _)
  refine ⟨_, _, hwrite, hread, ?replies, ?others, by simp, by simp, by simp, ?memory, by simp, by simp, by simp, by simp⟩
  case replies =>
    have hvalue := State.getReg_putReg_same { s with host := .read r i :: rest } v hi hstatus hsstat hresult
    rw [State.reply_replies, State.putReg_replies]
    exact congrArg (s.replies ++ [·]) hvalue
  case others => exact fun r' i' hi' hne => State.getReg_putReg_of_ne _ v hi hi' hne
  case memory => exact State.readByte_congr (by simp) (by simp)

/-- Settles O11: `putReg` of a read-only register is the identity, and a read is a reply. -/
theorem readOnlyRegistersIgnoreWrites : Obligations.ReadOnlyRegistersIgnoreWrites := by
  refine ⟨fun s r v rest hr hh => ?_, fun s r i rest hi hh => ?_⟩
  · have hcmd : r ≠ .CMD := by rintro rfl; simp at hr
    have hi : 0 < r.elements := by obtain rfl | rfl | rfl := hr <;> decide
    rw [step_pending hh, perform_write hcmd hi, State.putReg_of_readOnly _ hr]
  · rw [step_pending hh, perform_read hi]
    rfl

end Sys2Proof.Machine
end

section
/-! PROOFS of the family 20_memory.md: the host's order, its direct accesses to `MEM`, and the bytes a command writes. -/

namespace Sys2Proof.Machine

/-! ### The host's order -/

/-- Issuing a word leaves the instance, the pending primitives and the replies alone. -/
theorem issue_hostSide {c : Byte} {s t : State} (h : issue c s = .next t) :
    t.host = s.host ∧ t.cfg = s.cfg ∧ t.replies = s.replies := by
  rcases issue_cases c s with ⟨i, -, hi⟩ | ⟨e, -, he⟩
  · obtain ⟨-, -, -, hcfg, -, hhost, hreplies⟩ := commandsWriteOnlyWhatTheTableSays i _ t (hi.symm.trans h)
    exact ⟨hhost, hcfg, hreplies⟩
  · cases he.symm.trans h
    exact ⟨rfl, rfl, rfl⟩

/-- Performing a primitive leaves the instance and the pending primitives alone, and tells the host one value if it is a
read, none otherwise. -/
theorem perform_hostSide {op : HostOp} {s t : State} (h : perform op s = .next t) :
    t.host = s.host ∧ t.cfg = s.cfg ∧
    (t.replies = s.replies ∨
      ((∃ r i, op = .read r i) ∨ ∃ x, op = .memLoad x) ∧ ∃ v, t.replies = s.replies ++ [v]) := by
  rcases perform_cases h with ⟨i, v, -, -, hi⟩ | ⟨r, i, v, -, -, -, rfl⟩ | ⟨r, i, hop, -, rfl⟩ | ⟨x, v, -, -, rfl⟩ |
    ⟨x, hop, -, rfl⟩ | ⟨-, rfl⟩
  · obtain ⟨hhost, hcfg, hreplies⟩ := issue_hostSide hi
    exact ⟨hhost, hcfg, .inl hreplies⟩
  · exact ⟨s.putReg_host r i v, s.putReg_cfg r i v, .inl (s.putReg_replies r i v)⟩
  · exact ⟨rfl, rfl, .inr ⟨.inl ⟨r, i, hop⟩, _, rfl⟩⟩
  · exact ⟨rfl, rfl, .inl rfl⟩
  · exact ⟨rfl, rfl, .inr ⟨.inr ⟨x, hop⟩, _, rfl⟩⟩
  · exact ⟨rfl, rfl, .inl rfl⟩

/-- Settles O5: a step takes the oldest primitive off the list and performs it, which tells the host a value for a read
alone. -/
theorem stepsFollowTheHostsOrder : Obligations.StepsFollowTheHostsOrder := by
  refine ⟨fun s hh => step_idle hh, fun s t op rest hh ht => ?_⟩
  obtain ⟨hhost, hcfg, hreplies⟩ := perform_hostSide ((step_pending hh).symm.trans ht)
  refine ⟨hhost, hcfg, ?_⟩
  rcases hreplies with hsame | ⟨hread, v, hv⟩
  · exact ⟨fun _ _ => hsame, [], by simpa using hsame, by simp⟩
  · refine ⟨fun hne hne' => ?_, [v], hv, by simp⟩
    rcases hread with ⟨r, i, hop⟩ | ⟨x, hop⟩
    · exact absurd hop (hne r i)
    · exact absurd hop (hne' x)

/-! ### The host's direct accesses -/

section DirectAccess

variable {s : State} {x : Nat}

theorem perform_memStore (v : Byte) (h : hostAddressFault s.cfg x = none) :
    perform (.memStore x v) s = .next (s.memWrite x [v]) := by simp [perform, hostMemStore, h]

theorem perform_memLoad (h : hostAddressFault s.cfg x = none) :
    perform (.memLoad x) s = .next (s.reply (s.readByte x).toNat) := by simp [perform, hostMemLoad, h]

/-- A store and a load of one address stop with the same fault. -/
theorem perform_of_hostAddressFault {op : HostOp} {v : Byte} {f : Fault} (hop : op = .memStore x v ∨ op = .memLoad x)
    (h : hostAddressFault s.cfg x = some f) : perform op s = .fault f := by
  obtain rfl | rfl := hop
  · simp [perform, hostMemStore, h]
  · simp [perform, hostMemLoad, h]

end DirectAccess

theorem hostAddressFault_of_le {c : Config} {x : Nat} (h : 2 ^ c.aw ≤ x) :
    hostAddressFault c x = some .hostAddressOutsideMem := if_pos h

theorem hostAddressFault_of_not_populated {c : Config} {x : Nat} (hx : x < 2 ^ c.aw) (h : populated c x = false) :
    hostAddressFault c x = some .hostAddressUnpopulated := by
  simp [hostAddressFault, addressSpace, Nat.not_le.2 hx, h]

/-! ### Memory inside and outside a range -/

theorem State.readByte_memWrite_singleton (s : State) (h : s.mem.wf) (x : Nat) (v : Byte) :
    (s.memWrite x [v]).readByte x = v := by simp [State.readByte_memWrite s h]

/-- A string stored at `x` changes only the bytes it covers (20_memory.md R52). -/
theorem State.sameMemoryOutside_memWrite (s : State) (h : s.mem.wf) (x : Nat) (v : List Byte) :
    SameMemoryOutside s (s.memWrite x v) x v.length := fun a ha => by
  rw [State.readByte_memWrite s h, if_neg (by omega)]

theorem SameMemory.outside {s t : State} (h : SameMemory s t) (x n : Nat) : SameMemoryOutside s t x n := fun a _ => h a

theorem SameMemoryOutside.mono {s t : State} {x n m : Nat} (h : SameMemoryOutside s t x n) (hnm : n ≤ m) :
    SameMemoryOutside s t x m := fun a ha => h a (by omega)

/-- Settles O12: the address check answers no fault, or the one the address calls for; a store is then a `memWrite` of one
byte and a load a reply. -/
theorem hostMemoryAccess : Obligations.HostMemoryAccess := by
  refine ⟨fun s x v rest hm hx hp hh => ?store, fun s x rest hx hp hh => ?load, fun s x v rest hh => ?fault⟩
  case store =>
    have hnone := (hostAddressFault_eq_none_iff s.cfg x).2 ⟨hx, hp⟩
    have hout := State.sameMemoryOutside_memWrite { s with host := rest } hm x [v]
    refine ⟨_, (step_pending hh).trans (perform_memStore v hnone), ?_, fun y hy => ?_, rfl⟩
    · exact State.readByte_memWrite_singleton _ hm x v
    · exact hout y (by simp only [List.length_singleton]; omega)
  case load =>
    have hnone := (hostAddressFault_eq_none_iff s.cfg x).2 ⟨hx, hp⟩
    exact (step_pending hh).trans (perform_memLoad hnone)
  case fault =>
    have hfault {f : Fault} (hf : hostAddressFault s.cfg x = some f) : step s = .fault f := by
      rcases hh with hh | hh
      · exact (step_pending hh).trans (perform_of_hostAddressFault (v := v) (.inl rfl) hf)
      · exact (step_pending hh).trans (perform_of_hostAddressFault (v := v) (.inr rfl) hf)
    exact ⟨fun hx => hfault (hostAddressFault_of_le hx), fun hx hp => hfault (hostAddressFault_of_not_populated hx hp)⟩

/-! ### The bytes a command writes -/

/-- A command changes no byte, or it is `ENC`, `PAD` or `DEC`, completed, and the bytes it wrote at `DST` are as many as it
needs and within `DCAP` (20_memory.md R67, 10_state.md R29). -/
theorem exec_memory {i : Instr} {s t : State} (hm : s.mem.wf) (h : exec i s = .next t) :
    SameMemory s t ∨
    t.status = 0 ∧ ∃ n, n ≤ s.dcap ∧ SameMemoryOutside s t s.dst n ∧
      ((i = .enc ∨ i = .pad) ∧ n = encryptedSize s.slen ∨ i = .dec ∧ n = s.slen) := by
  cases exec_effect h with
  | enc hk hd hsrc hdst =>
    have hout := s.sameMemoryOutside_memWrite hm s.dst (encryptMessage (s.memRead s.src s.slen) s.keyBytes s.iv)
    rw [length_encryptMessage, State.length_memRead] at hout
    exact .inr ⟨rfl, _, hd, hout, .inl ⟨.inl rfl, rfl⟩⟩
  | pad hd hsrc hdst =>
    have hout := s.sameMemoryOutside_memWrite hm s.dst (padInsert (s.memRead s.src s.slen))
    rw [length_padInsert, State.length_memRead] at hout
    exact .inr ⟨rfl, _, hd, hout, .inl ⟨.inr rfl, rfl⟩⟩
  | dec hc hk hd hsrc hdst =>
    have hout := s.sameMemoryOutside_memWrite hm s.dst (decryptMessage (s.memRead s.src s.slen) s.keyBytes s.iv)
    rw [length_decryptMessage_memRead s hc] at hout
    exact .inr ⟨rfl, _, hd, hout, .inr ⟨rfl, rfl⟩⟩
  | _ => exact .inl fun _ => rfl

/-- Settles O43: a command that writes at all writes the bytes it needs, which the capacity check bounds by `DCAP`, and
completes. -/
theorem writesStayInTheDestinationRange : Obligations.WritesStayInTheDestinationRange := by
  intro i s t hm h
  rcases exec_memory hm h with hsame | ⟨hok, n, hn, hout, hi⟩
  · exact ⟨fun _ => hsame.outside _ _, fun _ => hsame.outside _ _, fun _ _ _ => hsame, hsame.outside _ _, fun _ => hsame⟩
  · have hcap := hout.mono hn
    rcases hi with ⟨hi, rfl⟩ | ⟨rfl, rfl⟩
    · refine ⟨fun _ => hout, fun hdec => ?_, fun henc hpad _ => absurd hi (by simp [henc, hpad]), hcap, absurd hok⟩
      simp [hdec] at hi
    · exact ⟨fun hne => by simp at hne, fun _ => hout, fun _ _ hne => absurd rfl hne, hcap, absurd hok⟩

end Sys2Proof.Machine
end

section
/-! PROOFS of the family 30_encoding.md: the decoder against the words of the table, a step that issues a word, and the
host program `encrypt`. -/

namespace Sys2Proof.Machine

/-! ### The fields of a command word -/

theorem toNat_rsvField (c : Byte) : (rsvField c).toNat = c.toNat / 16 := by
  have := c.isLt
  simp only [rsvField, BitVec.extractLsb'_toNat, Nat.shiftRight_eq_div_pow]
  omega

theorem toNat_opField (c : Byte) : (opField c).toNat = c.toNat % 16 := by
  simp [opField, BitVec.extractLsb'_toNat]

/-- A command word is its two fields (30_encoding.md R70). -/
theorem rsvField_append_opField (c : Byte) : rsvField c ++ opField c = c := by
  apply BitVec.eq_of_toNat_eq
  have hlt := (opField c).isLt
  rw [BitVec.toNat_append, ← Nat.shiftLeft_add_eq_or_of_lt hlt, toNat_rsvField, toNat_opField]
  omega

/-! ### The decoder -/

theorem opcodeMap_eq_some_iff (op : BitVec 4) (i : Instr) : opcodeMap op = some i ↔ op = opcode i := by
  revert op
  cases i <;> decide

/-- The opcodes assigned to a command are 1 to 9 (30_encoding.md R72). -/
theorem exists_opcodeMap_eq_some_iff (op : BitVec 4) :
    (∃ i, opcodeMap op = some i) ↔ 1 ≤ op.toNat ∧ op.toNat ≤ 9 := by
  rw [← Option.isSome_iff_exists]
  revert op
  decide

theorem decodeWord_eq_ok_iff (c : Byte) (i : Instr) :
    decodeWord c = .ok i ↔ rsvField c = 0 ∧ opcodeMap (opField c) = some i := by
  by_cases hrsv : rsvField c = 0#4
  · cases hop : opcodeMap (opField c) <;> simp [decodeWord, hrsv, hop]
  · simp [decodeWord, hrsv]

theorem exists_decodeWord_eq_ok_iff (c : Byte) :
    (∃ i, decodeWord c = .ok i) ↔ rsvField c = 0 ∧ 1 ≤ (opField c).toNat ∧ (opField c).toNat ≤ 9 := by
  simp only [decodeWord_eq_ok_iff, exists_and_left, exists_opcodeMap_eq_some_iff]

theorem exists_decodeWord_eq_error_iff (c : Byte) : (∃ e, decodeWord c = .error e) ↔ ¬ ∃ i, decodeWord c = .ok i := by
  cases decodeWord c <;> simp

/-- A word that decodes to a command is that command's word: its fields are `0` and the command's opcode. -/
theorem eq_encode_of_decodeWord {c : Byte} {i : Instr} (h : decodeWord c = .ok i) : c = encode i := by
  obtain ⟨hrsv, hop⟩ := (decodeWord_eq_ok_iff c i).1 h
  rw [← rsvField_append_opField c, hrsv, (opcodeMap_eq_some_iff _ i).1 hop]
  rfl

theorem decodeTableWord_eq_some_iff (nbits w : Nat) (i : Instr) :
    decodeTableWord nbits w = some i ↔ decodeWord (tableWord nbits w) = .ok i := by
  unfold decodeTableWord
  cases decodeWord (tableWord nbits w) <;> simp

/-- Settles O1: each of the nine words is the one its command encodes to, and the opcode map is defined on 1 to 9. -/
theorem commandWordsSelectCommands : Obligations.CommandWordsSelectCommands :=
  ⟨decodeWord_encode .esize, decodeWord_encode .enc, decodeWord_encode .dec, decodeWord_encode .ks, decodeWord_encode .eblk,
    decodeWord_encode .dblk, decodeWord_encode .pad, decodeWord_encode .unpad, decodeWord_encode .clr,
    exists_decodeWord_eq_ok_iff⟩

/-- Settles O2: the decoder's fields are those of the encoder. -/
theorem decodeInvertsEncode : Obligations.DecodeInvertsEncode := by
  intro i _ c
  constructor
  · exact eq_encode_of_decodeWord
  · rintro rfl
    exact decodeWord_encode i

/-! ### Issuing a word -/

/-- The illegal words by their value (30_encoding.md R76). -/
theorem exists_decodeWord_eq_error_iff_toNat (c : Byte) :
    (∃ e, decodeWord c = .error e) ↔ 0x10 ≤ c.toNat ∨ c.toNat % 16 = 0 ∨ 0xA ≤ c.toNat % 16 := by
  rw [exists_decodeWord_eq_error_iff, exists_decodeWord_eq_ok_iff, BitVec.toNat_eq, toNat_rsvField, toNat_opField]
  have hzero : (0 : BitVec 4).toNat = 0 := rfl
  omega

/-- Settles O3: the illegal words are those with a field out of range, counted over the 256 bytes, and issuing one raises
IllegalCommand. -/
theorem illegalWordsRaiseIllegalCommand : Obligations.IllegalWordsRaiseIllegalCommand := by
  refine ⟨exists_decodeWord_eq_error_iff_toNat, by decide +kernel, fun c s hc => ?_⟩
  rcases issue_cases c s with ⟨i, hi, -⟩ | ⟨e, -, he⟩
  · exact absurd ⟨i, hi⟩ ((exists_decodeWord_eq_error_iff c).1 hc)
  · exact he

theorem perform_write_cmd (v : Nat) (s : State) : perform (.write .CMD 0 v) s = issue (BitVec.ofNat 8 v) s := by
  simp [perform, hostWrite, Reg.elements]

/-- Issuing a legal word runs its command with the word in `CMD` (30_encoding.md R71). -/
theorem issue_of_decodeWord {c : Byte} {i : Instr} (h : decodeWord c = .ok i) (s : State) :
    issue c s = exec i { s with cmd := c } := by
  obtain rfl := eq_encode_of_decodeWord h
  exact issue_encode i s

/-- A step whose primitive writes a legal word to `CMD` runs the command. -/
theorem step_write_cmd {s : State} {v : Nat} {rest : List HostOp} {i : Instr} (hh : s.host = .write .CMD 0 v :: rest)
    (hi : decodeWord (BitVec.ofNat 8 v) = .ok i) : step s = exec i { s with host := rest, cmd := BitVec.ofNat 8 v } := by
  rw [step_pending hh, perform_write_cmd, issue_of_decodeWord hi]

/-- Settles O4: a write to `CMD` issues the word, and `withFetchWord` puts such a write first. -/
theorem stepRunsTheDecodedCommand : Obligations.StepRunsTheDecodedCommand := by
  refine ⟨fun s v rest i hh hi => step_write_cmd hh hi, fun s nbits w i hi => ?_⟩
  have hword : BitVec.ofNat 8 (tableWord nbits w).toNat = tableWord nbits w := by simp
  have hstep := step_write_cmd (i := i) (s.pushIssue_host (tableWord nbits w))
    (by rw [hword]; exact (decodeTableWord_eq_some_iff nbits w i).1 hi)
  rw [hword] at hstep
  exact hstep

/-! ### Running a list of primitives -/

/-- With the primitives `ops` pending before any others, as many steps lead from `s` to `t` with those others pending. -/
def Performs (ops : List HostOp) (s t : State) : Prop :=
  ∀ rest : List HostOp,
    Host.Core.run core ops.length { s with host := ops ++ rest } = .next ({ t with host := rest } : State)

theorem run_succ_of_step {s t : State} (h : step s = .next t) (n : Nat) :
    Host.Core.run core (n + 1) s = Host.Core.run core n t := by
  have hcore : core.step s = .next t := h
  simp only [Host.Core.run, hcore]

/-- A run of `m + n` steps goes on from where its first `m` steps lead. -/
theorem run_add_of_run {s t : State} {m : Nat} (h : Host.Core.run core m s = .next t) (n : Nat) :
    Host.Core.run core (m + n) s = Host.Core.run core n t := by
  induction m generalizing s with
  | zero => cases h; rw [Nat.zero_add]
  | succ m ih =>
    rw [Nat.add_right_comm]
    simp only [Host.Core.run] at h ⊢
    split at h
    · exact ih h
    · cases h
    · cases h

theorem Performs.nil (s : State) : Performs [] s s := fun _ => rfl

theorem Performs.single {op : HostOp} {s t : State}
    (h : ∀ rest, perform op { s with host := rest } = .next { t with host := rest }) : Performs [op] s t :=
  fun rest => by
    have hstep : step { s with host := op :: rest } = .next { t with host := rest } := h rest
    exact run_succ_of_step hstep 0

theorem Performs.append {ops ops' : List HostOp} {s t u : State} (h : Performs ops s t) (h' : Performs ops' t u) :
    Performs (ops ++ ops') s u := fun rest => by
  rw [List.length_append, List.append_assoc]
  exact (run_add_of_run (h (ops' ++ rest)) ops'.length).trans (h' rest)

/-! ### The lines of a host program (30_encoding.md R83) -/

theorem performs_write {r : Reg} {i : Nat} (hr : r ≠ .CMD) (hi : i < r.elements) (v : Nat) (s : State) :
    Performs [.write r i v] s (s.putReg r i v) :=
  .single fun rest => (perform_write hr hi v _).trans (by cases r <;> rfl)

theorem performs_lineRd {r : Reg} (s : State) (hi : 0 < r.elements) : Performs (lineRd r) s (s.reply (s.getReg r 0)) :=
  .single fun rest => (perform_read hi _).trans (by cases r <;> rfl)

theorem lineWrb_concat (r : Reg) (bs : List Byte) (b : Byte) :
    lineWrb r (bs ++ [b]) = lineWrb r bs ++ [.write r bs.length b.toNat] := by
  have hprefix : ∀ j ∈ List.range bs.length,
      HostOp.write r j ((bs ++ [b]).getD j 0).toNat = .write r j (bs.getD j 0).toNat := by
    intro j hj
    rw [List.getD_append _ _ _ _ (List.mem_range.1 hj)]
  rw [lineWrb, List.length_append, List.length_singleton, List.range_succ, List.map_append, List.map_congr_left hprefix]
  simp [lineWrb]

/-- The elements of a byte register after `wrb` of a string: the string's bytes, and above them what was there. -/
def overlay {n : Nat} (w : Vector Byte n) (bs : List Byte) : Vector Byte n := Vector.ofFn fun j => bs.getD j w[j]

theorem overlay_nil {n : Nat} (w : Vector Byte n) : overlay w [] = w := by
  ext i hi
  simp [overlay]

/-- One byte more of the string. -/
theorem setIfInBounds_overlay {n : Nat} (w : Vector Byte n) (bs : List Byte) (b : Byte) :
    (overlay w bs).setIfInBounds bs.length b = overlay w (bs ++ [b]) := by
  ext i hi
  rcases Nat.lt_trichotomy i bs.length with hlt | rfl | hgt
  · simp [overlay, List.getElem?_append_left, hlt, hlt.ne']
  · simp [overlay]
  · have hnone : (bs ++ [b]).length ≤ i := by simpa using hgt
    simp [overlay, hgt.ne, hgt.le, List.getElem?_eq_none hnone]

/-- The string is what the register's first elements hold. -/
theorem take_overlay {n : Nat} (w : Vector Byte n) {bs : List Byte} (h : bs.length ≤ n) :
    (overlay w bs).toList.take bs.length = bs := by
  apply List.ext_getElem
  · simpa using h
  · intro j hj hj'
    simp [overlay, hj']

/-- A string as long as `IV` replaces all of it. -/
theorem overlay_eq_blockOf (w : Block) {bs : List Byte} (h : bs.length = 16) : overlay w bs = blockOf bs := by
  ext i hi
  simp [overlay, h, hi]

/-- `wrb` on a byte register, which `f` names by the state as a function of what the register holds. -/
theorem performs_lineWrb {n : Nat} {r : Reg} (hr : r ≠ .CMD) (hn : n = r.elements) (f : Vector Byte n → State)
    (hf : ∀ w i v, (f w).putReg r i v = f (w.setIfInBounds i (BitVec.ofNat 8 v))) (w : Vector Byte n) {bs : List Byte}
    (hlen : bs.length ≤ n) : Performs (lineWrb r bs) (f w) (f (overlay w bs)) := by
  induction bs using List.reverseRecOn with
  | nil =>
    rw [overlay_nil]
    exact .nil _
  | append_singleton bs b ih =>
    have hlt : bs.length < n := by simpa using hlen
    have hlast := performs_write hr (hn ▸ hlt) b.toNat (f (overlay w bs))
    rw [hf, BitVec.ofNat_toNat, BitVec.setWidth_eq, setIfInBounds_overlay] at hlast
    rw [lineWrb_concat]
    exact (ih hlt.le).append hlast

/-! ### The host program `encrypt` -/

/-- `ENC` with all its checks passed (44_chaining.md R172). -/
theorem execEnc_of_fits {s : State} (hk : KeyLengthOk s) (hd : encryptedSize s.slen ≤ s.dcap)
    (hsrc : Fits s.cfg s.src s.slen) (hdst : Fits s.cfg s.dst (encryptedSize s.slen)) :
    exec .enc s =
      .next ((s.memWrite s.dst (encryptMessage (s.memRead s.src s.slen) s.keyBytes s.iv)).clearSchedule.finish
        (encryptedSize s.slen)) := by
  rcases execEnc_cases s with ⟨hk', -⟩ | ⟨-, hd', -⟩ | ⟨-, -, he⟩
  · exact absurd hk hk'
  · exact absurd hd' (Nat.not_lt.2 hd)
  · exact he.trans (onRanges_of_fits (by simpa using ⟨hsrc, hdst⟩))

/-- `ENC` on its line, with all its checks passed. -/
theorem performs_lineIssue_enc {s : State} (hk : KeyLengthOk s) (hd : encryptedSize s.slen ≤ s.dcap)
    (hsrc : Fits s.cfg s.src s.slen) (hdst : Fits s.cfg s.dst (encryptedSize s.slen)) :
    Performs (lineIssue .enc) s
      ((({ s with cmd := encode .enc } : State).memWrite s.dst
        (encryptMessage (s.memRead s.src s.slen) s.keyBytes s.iv)).clearSchedule.finish (encryptedSize s.slen)) :=
  .single fun rest => by
    rw [perform_write_cmd, BitVec.ofNat_toNat, BitVec.setWidth_eq, issue_encode]
    exact execEnc_of_fits (s := { s with host := rest, cmd := encode .enc }) hk hd hsrc hdst

/-- The operands of the lines that `encrypt` and `decrypt` share, in their registers. -/
def State.withMessageOperands (s : State) (a n : Nat) (key iv : List Byte) (d c : Nat) : State :=
  { s with
    key := overlay s.key key
    klen := BitVec.ofNat 8 key.length
    iv := blockOf iv
    src := a
    slen := n
    dst := d
    dcap := c }

theorem truncate_of_lt {c : Config} {v : Nat} (h : v < 2 ^ c.aw) : truncate c v = v := Nat.mod_eq_of_lt h

/-- The operand lines, each address and length truncated as the host writes it (10_state.md R21). -/
theorem performs_progMessageOperands (s : State) (a n d c : Nat) {key iv : List Byte} (hkey : key.length ≤ 32)
    (hiv : iv.length = 16) :
    Performs (progMessageOperands a n key iv d c) s
      (s.withMessageOperands (truncate s.cfg a) (truncate s.cfg n) key iv (truncate s.cfg d) (truncate s.cfg c)) := by
  have hwrbKey : Performs (lineWrb .KEY key) s { s with key := overlay s.key key } :=
    performs_lineWrb (r := .KEY) (by decide) rfl (fun w => { s with key := w }) (fun _ _ _ => rfl) s.key hkey
  have hwrbIv (t : State) : Performs (lineWrb .IV iv) t { t with iv := blockOf iv } := by
    rw [← overlay_eq_blockOf t.iv hiv]
    exact performs_lineWrb (r := .IV) (by decide) rfl (fun w => { t with iv := w }) (fun _ _ _ => rfl) t.iv hiv.le
  have hwr (r : Reg) (hr : r ≠ .CMD) (hi : 0 < r.elements) (v : Nat) (t : State) :
      Performs (lineWr r v) t (t.putReg r 0 v) :=
    performs_write hr hi v t
  exact ((((((hwrbKey.append (hwr .KLEN (by decide) (by decide) _ _)).append (hwrbIv _)).append
    (hwr .SRC (by decide) (by decide) _ _)).append (hwr .SLEN (by decide) (by decide) _ _)).append
    (hwr .DST (by decide) (by decide) _ _)).append (hwr .DCAP (by decide) (by decide) _ _))

theorem toNat_klen_withMessageOperands (s : State) (a n d c : Nat) {key iv : List Byte} (hkey : key.length ≤ 32) :
    (s.withMessageOperands a n key iv d c).klen.toNat = key.length := by
  simp only [State.withMessageOperands, BitVec.toNat_ofNat]
  omega

/-- The key that `KLEN` and `KEY` then name is the one given. -/
theorem keyBytes_withMessageOperands (s : State) (a n d c : Nat) {key iv : List Byte} (hkey : key.length ≤ 32) :
    (s.withMessageOperands a n key iv d c).keyBytes = key := by
  rw [State.keyBytes, toNat_klen_withMessageOperands s a n d c hkey]
  exact take_overlay s.key hkey

/-- Settles O35: the operand lines leave the operands in their registers, `ENC` then passes its checks and writes the
ciphertext, and the two reads tell the host `STATUS` and `RESULT`. -/
theorem encryptPseudoInstructionEncrypts : Obligations.EncryptPseudoInstructionEncrypts := by
  intro s a n d c key iv hinv _ hkey hiv ha hn hd hc hcap hsrc hdst
  have hlen : key.length ≤ 32 := by omega
  have hoperands := performs_progMessageOperands s a n d c hlen hiv
  rw [truncate_of_lt ha, truncate_of_lt hn, truncate_of_lt hd, truncate_of_lt hc] at hoperands
  have hkeyOk : KeyLengthOk (s.withMessageOperands a n key iv d c) := by
    rwa [KeyLengthOk, toNat_klen_withMessageOperands s a n d c hlen]
  have henc := performs_lineIssue_enc hkeyOk hcap hsrc hdst
  rw [keyBytes_withMessageOperands s a n d c hlen] at henc
  have hprogram : Performs (progEncrypt a n key iv d c) s _ :=
    ((hoperands.append henc).append
      (performs_lineRd (r := .STATUS) _ (by decide))).append (performs_lineRd (r := .RESULT) _ (by decide))
  have hrun := hprogram []
  rw [List.append_nil] at hrun
  have hct : (encryptMessage (s.memRead a n) key (blockOf iv)).length = encryptedSize n := by simp
  have hread := s.memRead_memWrite_same hinv.memCanonical d (encryptMessage (s.memRead a n) key (blockOf iv))
  have hout := s.sameMemoryOutside_memWrite hinv.memCanonical d (encryptMessage (s.memRead a n) key (blockOf iv))
  rw [hct] at hread hout
  exact ⟨_, hrun, rfl, List.append_assoc _ _ _, hread, hout⟩

end Sys2Proof.Machine
end

section
/-! PROOFS of the family 40_primitives.md: the field GF(2^8), the matrix products, and the byte permutations. -/

namespace Sys2Proof.Machine

/-! ### Multiplication by `x`

GFMUL applies `timesX` again and again, so its laws come from what additive maps that commute with `timesX` have in common. -/

/-- A coefficient 0 or 1 times a byte. -/
def bitTimes (c : Bool) (t : Byte) : Byte := if c then t else 0

@[simp] theorem bitTimes_false (t : Byte) : bitTimes false t = 0#8 := rfl

@[simp] theorem bitTimes_true (t : Byte) : bitTimes true t = t := rfl

theorem bitTimes_xor (c : Bool) (t u : Byte) : bitTimes c (t ^^^ u) = bitTimes c t ^^^ bitTimes c u := by
  cases c <;> simp

theorem xor_bitTimes (c d : Bool) (t : Byte) : bitTimes (c ^^ d) t = bitTimes c t ^^^ bitTimes d t := by
  cases c <;> cases d <;> simp

/-- `timesX` as a byte operation: a shift, and the low bits of `p` added when a bit was shifted out. -/
theorem timesX_eq (p : BitVec 9) (t : Byte) : timesX p t = t <<< 1 ^^^ bitTimes (t.getLsbD 7) (p.setWidth 8) := by
  have hcarry : ((t.setWidth 9) <<< 1).getLsbD 8 = t.getLsbD 7 := by simp
  have hshift : ((t.setWidth 9) <<< 1).setWidth 8 = t <<< 1 := by ext i hi; simp
  simp only [timesX, hcarry]
  cases t.getLsbD 7 <;> simp [hshift]

theorem timesX_xor (p : BitVec 9) (t u : Byte) : timesX p (t ^^^ u) = timesX p t ^^^ timesX p u := by
  simp only [timesX_eq, BitVec.shiftLeft_xor_distrib, BitVec.getLsbD_xor, xor_bitTimes]
  ac_rfl

/-- An additive map on bytes that commutes with multiplication by `x`, and so with multiplication by every field element. -/
structure FieldLinear (p : BitVec 9) (f : Byte → Byte) : Prop where
  map_xor (t u : Byte) : f (t ^^^ u) = f t ^^^ f u
  map_timesX (t : Byte) : f (timesX p t) = timesX p (f t)

theorem FieldLinear.map_zero {p : BitVec 9} {f : Byte → Byte} (hf : FieldLinear p f) : f 0#8 = 0#8 := by
  simpa using hf.map_xor 0 0

theorem FieldLinear.map_bitTimes {p : BitVec 9} {f : Byte → Byte} (hf : FieldLinear p f) (c : Bool) (t : Byte) :
    f (bitTimes c t) = bitTimes c (f t) := by
  cases c
  · exact hf.map_zero
  · rfl

theorem fieldLinear_timesX (p : BitVec 9) : FieldLinear p (timesX p) := ⟨timesX_xor p, fun _ => rfl⟩

/-! ### The loop of GFMUL as a sum -/

/-- What the turns `l` of the loop of R91 add to `r`, started at `t`. -/
def gfSum (p : BitVec 9) (b : Byte) : List Nat → Byte → Byte
  | [], _ => 0
  | i :: l, t => bitTimes (b.getLsbD i) t ^^^ gfSum p b l (timesX p t)

@[simp] theorem gfSum_nil (p : BitVec 9) (b t : Byte) : gfSum p b [] t = 0#8 := rfl

@[simp] theorem gfSum_cons (p : BitVec 9) (b : Byte) (i : Nat) (l : List Nat) (t : Byte) :
    gfSum p b (i :: l) t = bitTimes (b.getLsbD i) t ^^^ gfSum p b l (timesX p t) := rfl

theorem foldl_eq_xor_gfSum (p : BitVec 9) (b : Byte) (l : List Nat) (r t : Byte) :
    (l.foldl (fun rt i => (if b.getLsbD i then rt.1 ^^^ rt.2 else rt.1, timesX p rt.2)) (r, t)).1 = r ^^^ gfSum p b l t := by
  induction l generalizing r t with
  | nil => simp
  | cons i l ih =>
    rw [List.foldl_cons, ih, gfSum_cons]
    cases b.getLsbD i <;> simp [BitVec.xor_assoc]

theorem gfmul_eq_gfSum (a b : Byte) (p : BitVec 9) : gfmul a b p = gfSum p b [0, 1, 2, 3, 4, 5, 6, 7] a := by
  rw [gfmul, foldl_eq_xor_gfSum]
  exact BitVec.zero_xor

theorem gfSum_zero (p : BitVec 9) (l : List Nat) (t : Byte) : gfSum p 0#8 l t = 0#8 := by
  induction l generalizing t with
  | nil => rfl
  | cons i l ih => simp [ih]

theorem gfSum_xor (p : BitVec 9) (b c : Byte) (l : List Nat) (t : Byte) :
    gfSum p (b ^^^ c) l t = gfSum p b l t ^^^ gfSum p c l t := by
  induction l generalizing t with
  | nil => simp
  | cons i l ih =>
    simp only [gfSum_cons, ih, BitVec.getLsbD_xor, xor_bitTimes]
    ac_rfl

theorem gfSum_xor_start (p : BitVec 9) (b : Byte) (l : List Nat) (t u : Byte) :
    gfSum p b l (t ^^^ u) = gfSum p b l t ^^^ gfSum p b l u := by
  induction l generalizing t u with
  | nil => simp
  | cons i l ih =>
    simp only [gfSum_cons, ih, timesX_xor, bitTimes_xor]
    ac_rfl

theorem FieldLinear.map_gfSum {p : BitVec 9} {f : Byte → Byte} (hf : FieldLinear p f) (b : Byte) (l : List Nat) (t : Byte) :
    f (gfSum p b l t) = gfSum p b l (f t) := by
  induction l generalizing t with
  | nil => exact hf.map_zero
  | cons i l ih => simp only [gfSum_cons, hf.map_xor, ih, hf.map_timesX, hf.map_bitTimes]

/-! ### The laws of GFMUL (40_primitives.md R91) -/

@[simp] theorem gfmul_zero (a : Byte) (p : BitVec 9) : gfmul a 0#8 p = 0#8 := by rw [gfmul_eq_gfSum, gfSum_zero]

theorem gfmul_xor (a b c : Byte) (p : BitVec 9) : gfmul a (b ^^^ c) p = gfmul a b p ^^^ gfmul a c p := by
  simp only [gfmul_eq_gfSum, gfSum_xor]

theorem xor_gfmul (a b c : Byte) (p : BitVec 9) : gfmul (a ^^^ b) c p = gfmul a c p ^^^ gfmul b c p := by
  simp only [gfmul_eq_gfSum, gfSum_xor_start]

theorem FieldLinear.map_gfmul {p : BitVec 9} {f : Byte → Byte} (hf : FieldLinear p f) (a b : Byte) :
    f (gfmul a b p) = gfmul (f a) b p := by
  rw [gfmul_eq_gfSum, gfmul_eq_gfSum, hf.map_gfSum]

theorem fieldLinear_gfmul (p : BitVec 9) (b : Byte) : FieldLinear p (gfmul · b p) :=
  ⟨fun t u => xor_gfmul t u b p, fun t => ((fieldLinear_timesX p).map_gfmul t b).symm⟩

theorem gfmul_right_comm (a b c : Byte) (p : BitVec 9) : gfmul (gfmul a b p) c p = gfmul (gfmul a c p) b p :=
  (fieldLinear_gfmul p c).map_gfmul a b

/-- No turn of the loop started at 1 shifts a bit out before the last, so none of the bytes added depends on `p`. -/
theorem one_gfmul (b : Byte) (p : BitVec 9) : gfmul 1 b p = b := by
  have hsum : gfmul 1 b p = gfmul 1 b 0 := by simp [gfmul_eq_gfSum, timesX_eq]
  have hzero : ∀ b : Byte, gfmul 1 b 0 = b := by decide +kernel
  rw [hsum, hzero]

/-- Both products come from 1 by the same two multiplications. -/
theorem gfmul_comm (a b : Byte) (p : BitVec 9) : gfmul a b p = gfmul b a p := by
  simpa only [one_gfmul] using gfmul_right_comm 1 a b p

theorem gfmul_one (a : Byte) (p : BitVec 9) : gfmul a 1 p = a := by rw [gfmul_comm, one_gfmul]

theorem gfmul_assoc (a b c : Byte) (p : BitVec 9) : gfmul (gfmul a b p) c p = gfmul a (gfmul b c p) p := by
  rw [gfmul_comm a b, gfmul_right_comm, gfmul_comm a]

/-- Settles O13: multiplications by two bytes commute because each is additive and commutes with multiplication by `x`;
bit 8 of `p`, which the reduction only clears, plays no part. -/
theorem fieldMultiplicationLaws : Obligations.FieldMultiplicationLaws := fun p _ a b c =>
  ⟨gfmul_zero a p, (gfmul_comm 0 b p).trans (gfmul_zero b p), gfmul_one a p, gfmul_comm a b p, gfmul_assoc a b c p,
    gfmul_xor a b c p⟩

/-! ### The matrix products (40_primitives.md R99, R100) -/

@[simp] theorem dotProduct_nil_left (p : BitVec 9) (v : List Byte) : dotProduct p [] v = 0#8 := rfl

@[simp] theorem dotProduct_nil_right (p : BitVec 9) (row : List Byte) : dotProduct p row [] = 0#8 := by
  simp [dotProduct]

theorem dotProduct_cons (p : BitVec 9) (m y : Byte) (row v : List Byte) :
    dotProduct p (m :: row) (y :: v) = gfmul m y p ^^^ dotProduct p row v := by
  rw [dotProduct, List.zipWith_cons_cons, List.foldl_cons, BitVec.xor_comm, List.foldl_assoc]
  rfl

theorem dotProduct_xor (p : BitVec 9) (row v w : List Byte) (h : v.length = w.length) :
    dotProduct p row (List.zipWith (· ^^^ ·) v w) = dotProduct p row v ^^^ dotProduct p row w := by
  induction row generalizing v w with
  | nil => simp
  | cons m row ih =>
    cases v with
    | nil =>
      obtain rfl := List.eq_nil_of_length_eq_zero h.symm
      simp
    | cons y v =>
      cases w with
      | nil => cases h
      | cons z w =>
        rw [List.zipWith_cons_cons, dotProduct_cons, dotProduct_cons, dotProduct_cons, gfmul_xor, ih v w (by simpa using h)]
        ac_rfl

theorem dotProduct_replicate_zero (p : BitVec 9) (row : List Byte) (n : Nat) : dotProduct p row (List.replicate n 0#8) = 0#8 := by
  induction row generalizing n with
  | nil => rfl
  | cons m row ih =>
    cases n with
    | zero => rfl
    | succ n => rw [List.replicate_succ, dotProduct_cons, ih, gfmul_zero, BitVec.xor_self]

theorem le32_xor (a0 a1 a2 a3 b0 b1 b2 b3 : Byte) :
    le32 (a0 ^^^ b0) (a1 ^^^ b1) (a2 ^^^ b2) (a3 ^^^ b3) = le32 a0 a1 a2 a3 ^^^ le32 b0 b1 b2 b3 := by
  rw [le32, ← BitVec.xor_append, ← BitVec.xor_append, ← BitVec.xor_append]
  rfl

theorem mdsmul_xor (a0 a1 a2 a3 b0 b1 b2 b3 : Byte) :
    mdsmul (a0 ^^^ b0) (a1 ^^^ b1) (a2 ^^^ b2) (a3 ^^^ b3) = mdsmul a0 a1 a2 a3 ^^^ mdsmul b0 b1 b2 b3 := by
  have hrow (i : Fin 4) := dotProduct_xor polyMds (mdsRow i) [a0, a1, a2, a3] [b0, b1, b2, b3] rfl
  simp only [List.zipWith_cons_cons, List.zipWith_nil_left] at hrow
  simp only [mdsmul, hrow, le32_xor]

theorem rsmul_xor {m n : List Byte} (h : m.length = n.length) :
    rsmul (List.zipWith (· ^^^ ·) m n) = rsmul m ^^^ rsmul n := by
  simp only [rsmul, dotProduct_xor _ _ m n h, le32_xor]

theorem mdsmul_zero : mdsmul 0 0 0 0 = 0 := by
  have hrow (i : Fin 4) : dotProduct polyMds (mdsRow i) [0, 0, 0, 0] = 0 := dotProduct_replicate_zero polyMds (mdsRow i) 4
  simp only [mdsmul, hrow]
  rfl

theorem rsmul_zero (n : Nat) : rsmul (List.replicate n 0#8) = 0 := by
  simp only [rsmul, dotProduct_replicate_zero]
  rfl

/-- Settles O14: each entry of a product is linear because multiplication by the matrix's entry is, and `LE32` is linear. -/
theorem matrixProductsAreLinear : Obligations.MatrixProductsAreLinear :=
  ⟨mdsmul_xor, mdsmul_zero, fun _ _ hm hn => rsmul_xor (hm.trans hn.symm), rsmul_zero 8⟩

/-! ### The permutations q0 and q1 (40_primitives.md R94) -/

/-- No two entries of a table of the construction `Q` are equal. -/
def NibbleTables.Injective (t : NibbleTables) : Prop :=
  ∀ l ∈ [t.t0, t.t1, t.t2, t.t3], ∀ x y : Nibble, l.getD x.toNat 0 = l.getD y.toNat 0 → x = y

theorem nibbles_append_inj {a b c d : Nibble} (h : a ++ b = c ++ d) : a = c ∧ b = d :=
  ⟨by simpa only [BitVec.extractLsb'_append_eq_left] using congrArg (BitVec.extractLsb' 4 4) h,
    by simpa only [BitVec.extractLsb'_append_eq_right] using congrArg (BitVec.extractLsb' 0 4) h⟩

/-- The step from `(a0, b0)` to `(a1, b1)`, and from `(a2, b2)` to `(a3, b3)`, of the construction `Q` loses nothing. -/
theorem nibbleMix_injective {a b c d : Nibble} (h1 : a ^^^ b = c ^^^ d)
    (h2 : a ^^^ ror4 b ^^^ 8 * a = c ^^^ ror4 d ^^^ 8 * c) : a = c ∧ b = d := by
  have hmix : ∀ a b c : Nibble, a ^^^ ror4 b ^^^ 8 * a = c ^^^ ror4 (c ^^^ (a ^^^ b)) ^^^ 8 * c → a = c := by decide +kernel
  have hd : d = c ^^^ (a ^^^ b) := by rw [h1, xor_cancel_left]
  obtain rfl : a = c := hmix a b c (hd ▸ h2)
  exact ⟨rfl, (BitVec.xor_right_inj a).1 h1⟩

/-- The construction `Q` runs backwards: its last tables, the mixing step, its first tables, the mixing step. -/
theorem permute_injective {t : NibbleTables} (ht : t.Injective) : Function.Injective (permute t) := by
  intro x y h
  obtain ⟨hb4, ha4⟩ := nibbles_append_inj h
  obtain ⟨ha2, hb2⟩ := nibbleMix_injective (ht t.t2 (by simp) _ _ ha4) (ht t.t3 (by simp) _ _ hb4)
  obtain ⟨ha0, hb0⟩ := nibbleMix_injective (ht t.t0 (by simp) _ _ ha2) (ht t.t1 (by simp) _ _ hb2)
  have happend (z : Byte) : z.extractLsb' 4 4 ++ z.extractLsb' 0 4 = z := rsvField_append_opField z
  rw [← happend x, ← happend y, ha0, hb0]

theorem tablesQ0_injective : tablesQ0.Injective := by
  unfold NibbleTables.Injective
  decide +kernel

theorem tablesQ1_injective : tablesQ1.Injective := by
  unfold NibbleTables.Injective
  decide +kernel

theorem q0_bijective : Function.Bijective q0 := Finite.injective_iff_bijective.1 (permute_injective tablesQ0_injective)

theorem q1_bijective : Function.Bijective q1 := Finite.injective_iff_bijective.1 (permute_injective tablesQ1_injective)

/-! ### The lanes of HSUB and the S-boxes (41_keyschedule.md R115, R118) -/

theorem Perm.apply_bijective (π : Perm) : Function.Bijective π.apply := by
  cases π with
  | q0 => exact q0_bijective
  | q1 => exact q1_bijective

theorem xor_bijective (c : Byte) : Function.Bijective (· ^^^ c) :=
  Function.Involutive.bijective fun y => xor_cancel_right y c

/-- Each turn of the loop of R115 is a permutation followed by the addition of a constant. -/
theorem hTiers_bijective (j : Nat) (l : List Word) (n : Nat) : Function.Bijective (hTiers j l n) := by
  induction n with
  | zero => exact Function.bijective_id
  | succ t ih => exact ih.comp ((xor_bijective (byteOf (l.getD t 0) j)).comp (qsel (t + 1) j).apply_bijective)

theorem hLane_bijective (j : Nat) (l : List Word) : Function.Bijective (hLane j l) :=
  (qsel 0 j).apply_bijective.comp (hTiers_bijective j l l.length)

/-- An S-box of a key holds the values of its lane. -/
theorem sboxAt_sBoxes (key : List Byte) (j : Fin 4) (x : Byte) : sboxAt (sBoxes key)[j] x = hLane j (sList key) x := by
  simp [sboxAt, sBoxes]

/-- Settles O15: the construction `Q` is injective step by step, a lane composes its permutations, and an S-box tabulates
a lane. -/
theorem substitutionsArePermutations : Obligations.SubstitutionsArePermutations := by
  refine ⟨q0_bijective, q1_bijective, fun l j => hLane_bijective j l, fun key j => ?_⟩
  simpa only [sboxAt_sBoxes] using hLane_bijective j (sList key)

end Sys2Proof.Machine
end

section
/-! PROOFS of the family 41_keyschedule.md: the schedule entry by entry, and the command `KS`. -/

namespace Sys2Proof.Machine

/-! ### The entries of a schedule (41_keyschedule.md R118, R119) -/

theorem roundKeys_getElem_even (key : List Byte) (i : Fin 20) :
    (roundKeys key)[2 * i.val] = (roundKeyPair (keyEven key) (keyOdd key) i).1 := by
  simp [roundKeys]

theorem roundKeys_getElem_odd (key : List Byte) (i : Fin 20) :
    (roundKeys key)[2 * i.val + 1] = (roundKeyPair (keyEven key) (keyOdd key) i).2 := by
  have hdiv : (2 * i.val + 1) / 2 = i := by omega
  simp [roundKeys, hdiv]

theorem sBoxes_getElem (key : List Byte) (j : Fin 4) (x : Fin 256) :
    (sBoxes key)[j][x] = hLane j (sList key) (BitVec.ofNat 8 x) := by
  simp [sBoxes]

/-- Started at a word of four equal bytes, `HSUB` starts every lane at that byte. -/
theorem hSub_repeated_getElem (l : List Word) (j : Fin 4) (x : Fin 256) :
    (hSub (repeated x) l)[j] = hLane j l (BitVec.ofNat 8 x) := by
  have hx : (BitVec.ofNat 8 x).toNat = x := by simp
  have hbyte : byteOf (repeated x) j = BitVec.ofNat 8 x := by
    simpa only [hx, repeated] using byteOf_repeated (BitVec.ofNat 8 x) j j.isLt
  simp [hSub, hbyte]

/-! ### The command `KS` (41_keyschedule.md R121) -/

theorem execKs_of_keyLengthOk {s : State} (h : KeyLengthOk s) :
    exec .ks s = .next ((s.keepSchedule (roundKeys s.keyBytes) (sBoxes s.keyBytes) (s.klen.toNat / 8)).finish 0) :=
  ((execKs_cases s).resolve_right fun ⟨hk, _⟩ => hk h).2

theorem operandsKept_keepSchedule_finish (s : State) (k : RoundKeys) (sb : SBoxes) (n r : Nat) :
    OperandsKept s ((s.keepSchedule k sb n).finish r) :=
  ⟨rfl, rfl, rfl, rfl, rfl, rfl, rfl, rfl, rfl, rfl, rfl, rfl⟩

theorem scheduleCleared_clearSchedule (s : State) : ScheduleCleared s.clearSchedule :=
  ⟨by simp, by simp, rfl⟩

/-- The error exit of `KS`, `ENC` and `DEC` (60_exceptions.md R201). -/
theorem raisedAndCleared_clearSchedule_raise (s : State) (e : CmdError) :
    RaisedAndCleared s (s.clearSchedule.raise e) e.code where
  status := rfl
  result := rfl
  cleared := scheduleCleared_clearSchedule s
  operands := ⟨rfl, rfl, rfl, rfl, rfl, rfl, rfl, rfl, rfl, rfl, rfl, rfl⟩
  blk := rfl
  mem := rfl

/-- Settles O16: with a legal length the state kept is read entry by entry, with any other length `KS` leaves by the
error exit. -/
theorem ksKeepsTheScheduleOfTheKey : Obligations.KsKeepsTheScheduleOfTheKey := by
  refine ⟨rfl, fun s hk => ?legal, fun s hk => ?illegal⟩
  case legal =>
    have hkn : s.klen.toNat / 8 < 8 := by omega
    refine ⟨_, execKs_of_keyLengthOk hk, rfl, rfl, ?_, ?_, fun i => ⟨?_, ?_⟩, fun j x => ?_,
      operandsKept_keepSchedule_finish .., rfl, rfl⟩
    · rw [State.sv_finish, State.sv_keepSchedule]
    · rw [State.kn_finish, State.kn_keepSchedule _ _ _ hkn]
    · exact roundKeys_getElem_even s.keyBytes i
    · exact roundKeys_getElem_odd s.keyBytes i
    · exact (sBoxes_getElem s.keyBytes j x).trans (hSub_repeated_getElem (sList s.keyBytes) j x).symm
  case illegal => exact ⟨_, execKs_of_not_keyLengthOk hk, raisedAndCleared_clearSchedule_raise s .invalidKeyLength⟩

/-- Settles O17: `KS` keeps `KLEN` and `KEY`, so the second run takes the branch of the first and writes again what the
first wrote. -/
theorem ksTwiceIsOnce : Obligations.KsTwiceIsOnce := by
  intro s t h
  rcases execKs_cases s with ⟨hk, he⟩ | ⟨hk, he⟩ <;> cases he.symm.trans h
  · exact execKs_of_keyLengthOk hk
  · exact execKs_of_not_keyLengthOk hk

end Sys2Proof.Machine
end

section
/-! PROOFS of the family 42_blocktransform.md: `G` against `H`, the inverse law of the block transform, and the commands
`EBLK` and `DBLK`. -/

namespace Sys2Proof.Machine

/-! ### The function g (42_blocktransform.md R130) -/

/-- Settles O19: an S-box of the key tabulates its lane of `HSUB` with the list `SL`, so `G` and `H` multiply the same four
bytes by the MDS matrix. -/
theorem gIsHOfTheSWords : Obligations.GIsHOfTheSWords := by
  intro key x
  have hlane (j : Fin 4) : sboxAt (sBoxes key)[j] (byteOf x j) = (hSub x (sList key))[j] := by
    rw [sboxAt_sBoxes]
    simp [hSub]
  exact congr (congr (congr (congrArg mdsmul (hlane 0)) (hlane 1)) (hlane 2)) (hlane 3)

/-! ### One round (42_blocktransform.md R132, R135) -/

theorem decRound_encRound (k : RoundKeys) (sb : SBoxes) (q : Quad) (r : Fin 16) :
    decRound k sb (encRound k sb q r) r = q := by
  simp [decRound, encRound, rol32_ror32, ror32_rol32]

theorem encRound_decRound (k : RoundKeys) (sb : SBoxes) (q : Quad) (r : Fin 16) :
    encRound k sb (decRound k sb q r) r = q := by
  simp [decRound, encRound, rol32_ror32, ror32_rol32]

/-- Settles O20: `F` reads only the pair that a round keeps, so both rounds exclusive-or the same words, between rotations
that undo each other. -/
theorem decRoundUndoesEncRound : Obligations.DecRoundUndoesEncRound :=
  fun k sb q r => ⟨decRound_encRound k sb q r, encRound_decRound k sb q r⟩

/-! ### Swapping and whitening (42_blocktransform.md R133, R136) -/

@[simp] theorem swapPairs_swapPairs (q : Quad) : swapPairs (swapPairs q) = q := rfl

@[simp] theorem whiten_whiten (q : Quad) (k0 k1 k2 k3 : Word) : whiten (whiten q k0 k1 k2 k3) k0 k1 k2 k3 = q := by
  simp [whiten]

/-! ### The sixteen rounds

R133 and R136 swap the pairs after every round but the last. Swapping after the last one too, and once more at the end, comes
to the same, and makes all the turns of the loop alike. -/

/-- The rounds of the list in order, each followed by the swap. -/
def swapRounds (round : Quad → Fin 16 → Quad) (rs : List (Fin 16)) (q : Quad) : Quad :=
  rs.foldl (fun q r => swapPairs (round q r)) q

/-- The loop of R133 and of R136 over the rounds `rs` and then `last`. -/
theorem foldl_swap_unless_last (round : Quad → Fin 16 → Quad) {rs : List (Fin 16)} {last : Fin 16} (h : last ∉ rs) (q : Quad) :
    (rs ++ [last]).foldl (fun q r => if r = last then round q r else swapPairs (round q r)) q =
      swapPairs (swapRounds round (rs ++ [last]) q) := by
  have hrs : rs.foldl (fun q r => if r = last then round q r else swapPairs (round q r)) q = swapRounds round rs q :=
    List.foldl_ext _ _ q fun _ r hr => if_neg (ne_of_mem_of_not_mem hr h)
  rw [List.foldl_append, hrs]
  simp [swapRounds]

/-- Rounds that undo each other, taken in the reverse order, undo the whole loop; the swap carries over from one loop to the
other. -/
theorem swapRounds_reverse {f g : Quad → Fin 16 → Quad} (h : ∀ q r, g (f q r) r = q) (rs : List (Fin 16)) (q : Quad) :
    swapRounds g rs.reverse (swapPairs (swapRounds f rs q)) = swapPairs q := by
  induction rs generalizing q with
  | nil => rfl
  | cons r rs ih =>
    have hrest : swapRounds g rs.reverse (swapPairs (swapRounds f (r :: rs) q)) = f q r := ih (swapPairs (f q r))
    calc swapRounds g (r :: rs).reverse (swapPairs (swapRounds f (r :: rs) q))
        = swapPairs (g (swapRounds g rs.reverse (swapPairs (swapRounds f (r :: rs) q))) r) := by
          simp [swapRounds, List.foldl_append]
      _ = swapPairs q := by rw [hrest, h]

/-! ### A block (42_blocktransform.md R133, R136, R137) -/

theorem encryptBlock_eq_swapRounds (k : RoundKeys) (sb : SBoxes) (b : Block) :
    encryptBlock k sb b = wordsBlock (whiten
      (swapPairs (swapRounds (encRound k sb) roundOrder (whiten (blockWords b) k[0] k[1] k[2] k[3]))) k[4] k[5] k[6] k[7]) :=
  congrArg (fun q => wordsBlock (whiten q k[4] k[5] k[6] k[7]))
    (foldl_swap_unless_last (encRound k sb) (rs := [0, 1, 2, 3, 4, 5, 6, 7, 8, 9, 10, 11, 12, 13, 14]) (by decide) _)

theorem decryptBlock_eq_swapRounds (k : RoundKeys) (sb : SBoxes) (c : Block) :
    decryptBlock k sb c = wordsBlock (whiten
      (swapPairs (swapRounds (decRound k sb) roundOrder.reverse (whiten (blockWords c) k[4] k[5] k[6] k[7])))
      k[0] k[1] k[2] k[3]) :=
  congrArg (fun q => wordsBlock (whiten q k[0] k[1] k[2] k[3]))
    (foldl_swap_unless_last (decRound k sb) (rs := [15, 14, 13, 12, 11, 10, 9, 8, 7, 6, 5, 4, 3, 2, 1]) (by decide) _)

theorem decryptBlock_encryptBlock (k : RoundKeys) (sb : SBoxes) (b : Block) :
    decryptBlock k sb (encryptBlock k sb b) = b := by
  rw [encryptBlock_eq_swapRounds, decryptBlock_eq_swapRounds, blockWords_wordsBlock, whiten_whiten,
    swapRounds_reverse (decRound_encRound k sb), swapPairs_swapPairs, whiten_whiten, wordsBlock_blockWords]

theorem encryptBlock_decryptBlock (k : RoundKeys) (sb : SBoxes) (c : Block) :
    encryptBlock k sb (decryptBlock k sb c) = c := by
  have hrounds := swapRounds_reverse (encRound_decRound k sb) roundOrder.reverse
  rw [List.reverse_reverse] at hrounds
  rw [decryptBlock_eq_swapRounds, encryptBlock_eq_swapRounds, blockWords_wordsBlock, whiten_whiten, hrounds,
    swapPairs_swapPairs, whiten_whiten, wordsBlock_blockWords]

/-- Settles O21: the whitening keys change roles and cancel, and between them the rounds undo each other in the reverse
order. -/
theorem decryptBlockInvertsEncryptBlock : Obligations.DecryptBlockInvertsEncryptBlock :=
  fun k sb b => ⟨decryptBlock_encryptBlock k sb b, encryptBlock_decryptBlock k sb b⟩

/-! ### The commands `EBLK` and `DBLK` (42_blocktransform.md R138, R139) -/

theorem execEblk_of_sv {s : State} (h : s.sv = true) :
    exec .eblk s = .next { s with blk := encryptBlock s.k s.sb s.blk, status := 0, result := 0 } :=
  ((execEblk_cases s).resolve_right fun ⟨hv, _⟩ => by simp [h] at hv).2

theorem execDblk_of_sv {s : State} (h : s.sv = true) :
    exec .dblk s = .next { s with blk := decryptBlock s.k s.sb s.blk, status := 0, result := 0 } :=
  ((execDblk_cases s).resolve_right fun ⟨hv, _⟩ => by simp [h] at hv).2

/-- The result of `EBLK` or `DBLK` has the schedule flag of the state before. -/
theorem State.sv_withBlk (s : State) (b : Block) (e : Byte) (n : Nat) :
    { s with blk := b, status := e, result := n }.sv = s.sv := rfl

/-- Settles O22, by `SV`. -/
theorem eblkEncryptsTheBlockRegister : Obligations.EblkEncryptsTheBlockRegister :=
  ⟨rfl, fun _ => execEblk_of_sv, fun _ h => execEblk_of_not_sv h⟩

/-- Settles O23: neither command changes the schedule store, so the second runs with the schedule of the first and the inverse
law of a block restores `BLK`. -/
theorem dblkUndoesEblk : Obligations.DblkUndoesEblk := by
  refine ⟨rfl, fun s h => ⟨execDblk_of_sv h, ⟨_, execEblk_of_sv h, ?eblkThenDblk⟩, ⟨_, execDblk_of_sv h, ?dblkThenEblk⟩⟩,
    fun _ h => execDblk_of_not_sv h⟩
  case eblkThenDblk => rw [execDblk_of_sv ((State.sv_withBlk ..).trans h), decryptBlock_encryptBlock]
  case dblkThenEblk => rw [execEblk_of_sv ((State.sv_withBlk ..).trans h), encryptBlock_decryptBlock]

end Sys2Proof.Machine
end

section
/-! PROOFS of the family 43_padding.md: the padded size, padding insertion and removal, and the commands `ESIZE`, `PAD`
and `UNPAD`. -/

namespace Sys2Proof.Machine

/-! ### The padded size (43_padding.md R150, R151, R156) -/

theorem encryptedSize_eq_self_iff (n : Nat) : encryptedSize n = n ↔ n % 16 = 0 :=
  ⟨fun h => h ▸ encryptedSize_mod n, encryptedSize_of_aligned⟩

theorem encryptedSize_le (n : Nat) : encryptedSize n ≤ n + 15 := by
  by_cases h : n % 16 = 0
  · rw [encryptedSize_of_aligned h]
    omega
  · rw [encryptedSize_of_unaligned h]
    omega

@[simp] theorem encryptedSize_encryptedSize (n : Nat) : encryptedSize (encryptedSize n) = encryptedSize n :=
  encryptedSize_of_aligned (encryptedSize_mod n)

/-- Settles O24: the fixed points are the multiples of 16, and every padded size is one. -/
theorem encryptedSizeLaws : Obligations.EncryptedSizeLaws := fun n =>
  ⟨encryptedSize_mod n, encryptedSize_eq_self_iff n, encryptedSize_of_unaligned, le_encryptedSize n, encryptedSize_le n,
    encryptedSize_encryptedSize n⟩

/-- Below a bound of whole blocks, the padded size leaves it exactly from an incomplete last block. -/
theorem encryptedSize_lt_iff {n b : Nat} (hb : b % 16 = 0) (hn : n < b) :
    encryptedSize n < b ↔ ¬ (b - 16 < n ∧ n % 16 ≠ 0) := by
  by_cases h : n % 16 = 0
  · rw [encryptedSize_of_aligned h]
    omega
  · rw [encryptedSize_of_unaligned h]
    omega

theorem two_pow_mod_sixteen {w : Nat} (h : 8 ≤ w) : 2 ^ w % 16 = 0 :=
  Nat.mod_eq_zero_of_dvd (Nat.pow_dvd_pow (m := 4) 2 (by omega))

/-! ### Where the padded size does not fit (43_padding.md R156) -/

section SizeTooLarge

variable {s : State}

theorem execEsize_of_le (h : 2 ^ s.cfg.aw ≤ encryptedSize s.slen) : exec .esize s = .refused .paddedSizeTooLarge :=
  ((execEsize_cases s).resolve_left fun ⟨hlt, _⟩ => Nat.not_lt.2 h hlt).2

theorem execPad_of_dcap_lt (h : s.dcap < encryptedSize s.slen) : exec .pad s = .next (s.raise .bufferTooSmall) :=
  ((execPad_cases s).resolve_right fun ⟨hle, _⟩ => Nat.not_lt.2 hle h).2

theorem execEnc_of_dcap_lt (hk : KeyLengthOk s) (h : s.dcap < encryptedSize s.slen) :
    exec .enc s = .next (s.clearSchedule.raise .bufferTooSmall) := by
  rcases execEnc_cases s with ⟨hk', -⟩ | ⟨-, -, he⟩ | ⟨-, hle, -⟩
  · exact absurd hk hk'
  · exact he
  · exact absurd h (Nat.not_lt.2 hle)

end SizeTooLarge

/-- Settles O25: a padded size of `2^AW` or more exceeds `RESULT`, and with it every capacity. -/
theorem esizeReportsOrIsRefused : Obligations.EsizeReportsOrIsRefused := by
  refine ⟨rfl, fun s haw hslen hdcap => ?_⟩
  have hfit := encryptedSize_lt_iff (two_pow_mod_sixteen haw) hslen
  refine ⟨fun h => ⟨execEsize_of_lt (hfit.2 h), hfit.2 h⟩, fun h => ?_⟩
  have hbig : 2 ^ s.cfg.aw ≤ encryptedSize s.slen := Nat.not_lt.1 fun hlt => hfit.1 hlt h
  have hcap : s.dcap < encryptedSize s.slen := hdcap.trans_le hbig
  exact ⟨execEsize_of_le hbig, execPad_of_dcap_lt hcap,
    fun hk => ⟨_, execEnc_of_dcap_lt hk hcap, raisedAndCleared_clearSchedule_raise s .bufferTooSmall⟩⟩

/-! ### Padding insertion and removal (43_padding.md R152 to R154) -/

theorem padInsert_of_aligned {m : List Byte} (h : m.length % 16 = 0) : padInsert m = m := by
  simp [padInsert, encryptedSize_of_aligned h]

/-- Byte `j` after the message is the count, which is at most 15 and so fits the byte. -/
theorem toNat_padInsert_getD_count (m : List Byte) {j : Nat} (h1 : m.length ≤ j) (h2 : j < encryptedSize m.length) :
    ((padInsert m).getD j 0).toNat = encryptedSize m.length - m.length := by
  have hle := encryptedSize_le m.length
  rw [padInsert_getD_count m h1 h2, BitVec.toNat_ofNat]
  omega

/-- The count bytes of an insertion are what removal looks for. -/
theorem looksPadded_padInsert {m : List Byte} (h : m.length % 16 ≠ 0) :
    LooksPadded (padInsert m) (encryptedSize m.length - m.length) := by
  have hsize := encryptedSize_of_unaligned h
  have hcount {j : Nat} (h1 : 1 ≤ j) (h2 : j ≤ encryptedSize m.length - m.length) :
      ((padInsert m).getD ((padInsert m).length - j) 0).toNat = encryptedSize m.length - m.length := by
    rw [length_padInsert]
    exact toNat_padInsert_getD_count m (by omega) (by omega)
  exact ⟨hcount (by omega) (by omega), by omega, by omega, fun _ => hcount⟩

theorem recoveredLength_padInsert_of_unaligned {m : List Byte} (h : m.length % 16 ≠ 0) :
    recoveredLength (padInsert m) = m.length := by
  rw [recoveredLength_of_looksPadded (looksPadded_padInsert h), length_padInsert,
    Nat.sub_sub_self (le_encryptedSize m.length)]

theorem recoveredLength_eq_length_iff {p : List Byte} (hp : 1 ≤ p.length) :
    recoveredLength p = p.length ↔ ∀ v, ¬ LooksPadded p v := by
  refine ⟨fun h v hv => ?_, recoveredLength_of_not_looksPadded⟩
  have hshort := recoveredLength_of_looksPadded hv
  obtain ⟨-, hpos, -⟩ := hv
  omega

/-- Settles O26: what insertion appends looks padded; where it appends nothing, removal takes what looks padded. -/
theorem recoveredLengthIsExactOrAmbiguous : Obligations.RecoveredLengthIsExactOrAmbiguous := fun _ hm =>
  ⟨recoveredLength_padInsert_of_unaligned,
    fun h => ⟨padInsert_of_aligned h, recoveredLength_eq_length_iff hm, fun _ => recoveredLength_of_looksPadded⟩⟩

/-! ### Removal sees the final block (43_padding.md R160) -/

theorem length_sub_recoveredLength_le (p : List Byte) : p.length - recoveredLength p ≤ 16 := by
  rcases recoveredLength_cases p with ⟨v, ⟨-, -, hv, -⟩, h⟩ | ⟨-, h⟩ <;> omega

/-- A byte counted from the end, as a byte of the last 16. -/
theorem getD_length_sub {p : List Byte} (hp : 16 ≤ p.length) {j : Nat} (hj : j ≤ 16) :
    p.getD (p.length - j) 0 = (p.drop (p.length - 16)).getD (16 - j) 0 := by
  have hindex : p.length - j = p.length - 16 + (16 - j) := by omega
  rw [List.getD_eq_getElem?_getD, List.getD_eq_getElem?_getD, List.getElem?_drop, hindex]

theorem looksPadded_congr {p q : List Byte} (hp : 16 ≤ p.length) (hq : 16 ≤ q.length)
    (h : p.drop (p.length - 16) = q.drop (q.length - 16)) {v : Nat} (hv : LooksPadded p v) : LooksPadded q v := by
  have hbyte {j : Nat} (hj : j ≤ 16) : q.getD (q.length - j) 0 = p.getD (p.length - j) 0 := by
    rw [getD_length_sub hp hj, getD_length_sub hq hj, h]
  obtain ⟨hlast, hpos, hle, hall⟩ := hv
  refine ⟨by rwa [hbyte (by decide)], hpos, hle, fun j h1 h2 => ?_⟩
  rw [hbyte (h2.trans hle)]
  exact hall j h1 h2

/-- Settles O27: strings with the same last 16 bytes look padded with the same `v`. -/
theorem onlyTheFinalBlockDecidesTheLength : Obligations.OnlyTheFinalBlockDecidesTheLength := by
  intro p q hlen hp hdrop
  have hq : 16 ≤ q.length := hlen ▸ hp
  rcases recoveredLength_cases p with ⟨v, hv, h⟩ | ⟨hno, h⟩
  · rw [h, recoveredLength_of_looksPadded (looksPadded_congr hp hq hdrop hv), hlen]
  · rw [h, recoveredLength_of_not_looksPadded fun v hv => hno v (looksPadded_congr hq hp hdrop.symm hv), hlen]

/-! ### The commands `PAD` and `UNPAD` (43_padding.md R157, R160) -/

/-- Byte `j` of a string stored at `x`, read back (20_memory.md R51, R52). -/
theorem State.readByte_memWrite_add (s : State) (h : s.mem.wf) (x : Nat) {v : List Byte} {j : Nat} (hj : j < v.length) :
    (s.memWrite x v).readByte (x + j) = v.getD j 0 := by
  rw [State.readByte_memWrite s h, if_pos (by omega), Nat.add_sub_cancel_left]

theorem operandsKept_memWrite_finish (s : State) (x : Nat) (v : List Byte) (r : Nat) :
    OperandsKept s ((s.memWrite x v).finish r) :=
  ⟨rfl, rfl, rfl, rfl, rfl, rfl, rfl, rfl, rfl, rfl, rfl, rfl⟩

/-- Settles O28: the string `PAD` stores was made from the source before the store, so an overlap does no harm; the message
stands first in it and the count bytes after. -/
theorem padWritesTheMessageAndItsPadding : Obligations.PadWritesTheMessageAndItsPadding := by
  refine ⟨rfl, fun s hm hd hsrc hdst => ?_, fun s h => execPad_of_dcap_lt h⟩
  have hread : (s.memRead s.src s.slen).length = s.slen := s.length_memRead s.src s.slen
  have hlen : (padInsert (s.memRead s.src s.slen)).length = encryptedSize s.slen := by rw [length_padInsert, hread]
  have hwritten {j : Nat} (hj : j < encryptedSize s.slen) :
      (s.memWrite s.dst (padInsert (s.memRead s.src s.slen))).readByte (s.dst + j) =
        (padInsert (s.memRead s.src s.slen)).getD j 0 :=
    s.readByte_memWrite_add hm s.dst (hlen.symm ▸ hj)
  refine ⟨_, execPad_of_fits hd hsrc hdst, rfl, rfl, fun j hj => ?message, fun j hj hj' => ?count, ?outside,
    operandsKept_memWrite_finish .., ⟨rfl, rfl, rfl⟩, rfl⟩
  case message =>
    rw [State.readByte_finish, hwritten (hj.trans_le (le_encryptedSize s.slen)),
      padInsert_getD_message _ (hread.symm ▸ hj), s.getD_memRead s.src hj]
  case count =>
    rw [State.readByte_finish, hwritten hj', toNat_padInsert_getD_count _ (hread.symm ▸ hj) (hread.symm ▸ hj'), hread]
  case outside =>
    have hout := s.sameMemoryOutside_memWrite hm s.dst (padInsert (s.memRead s.src s.slen))
    rwa [hlen] at hout

theorem execUnpad_of_fits {s : State} (hc : CiphertextLengthOk s) (hsrc : Fits s.cfg s.src s.slen) :
    exec .unpad s = .next (s.finish (recoveredLength (s.memRead s.src s.slen))) := by
  rcases execUnpad_cases s with ⟨hc', -⟩ | ⟨-, he⟩
  · exact absurd hc hc'
  · exact he.trans (onRanges_of_fits (by simpa using hsrc))

/-- Settles O29: the length reported is the recovered length of the source buffer, which has `SLEN` bytes. -/
theorem unpadReportsTheRecoveredLength : Obligations.UnpadReportsTheRecoveredLength := by
  refine ⟨rfl, fun s hc hsrc => ⟨_, execUnpad_of_fits hc hsrc, fun v hv => ?_, fun h => ?_, ?_, ?_⟩,
    fun s h => execUnpad_of_not_ciphertextLengthOk h⟩
  · rw [recoveredLength_of_looksPadded hv, State.length_memRead]
  · rw [recoveredLength_of_not_looksPadded h, State.length_memRead]
  · simpa using recoveredLength_le (s.memRead s.src s.slen)
  · simpa using length_sub_recoveredLength_le (s.memRead s.src s.slen)

end Sys2Proof.Machine
end

section
/-! PROOFS of the family 44_chaining.md: the recurrences of the chained functions on byte strings, their inverse law, and the
commands `ENC` and `DEC`. -/

namespace Sys2Proof.Machine

/-! ### The chained functions on byte strings (44_chaining.md R166, R167) -/

section Chained

variable (k : RoundKeys) (sb : SBoxes) (iv : Block) {p : List Byte}

/-- Block `i` of `CbcEncrypt` (R166). -/
theorem blockOf_drop_cbcEncrypt {i : Nat} (hi : i < p.length / 16) :
    blockOf ((cbcEncrypt k sb iv p).drop (16 * i)) =
      encryptBlock k sb (xorBlock (blockOf (p.drop (16 * i)))
        (if i = 0 then iv else blockOf ((cbcEncrypt k sb iv p).drop (16 * (i - 1))))) := by
  have hblock {j : Nat} (hj : j < p.length / 16) := blockOf_fromBlocks
    (cbcEncryptBlocks k sb iv (toBlocks (p.length / 16) p)) j (by simpa using hj)
  rw [cbcEncrypt, hblock hi, cbcEncryptBlocks_getElem _ _ _ _ _ (by simpa using hi), toBlocks_getElem]
  split
  · rfl
  · rw [hblock (by omega)]

/-- Block `i` of `CbcDecrypt` (R167). -/
theorem blockOf_drop_cbcDecrypt {i : Nat} (hi : i < p.length / 16) :
    blockOf ((cbcDecrypt k sb iv p).drop (16 * i)) =
      xorBlock (decryptBlock k sb (blockOf (p.drop (16 * i))))
        (if i = 0 then iv else blockOf (p.drop (16 * (i - 1)))) := by
  rw [cbcDecrypt, blockOf_fromBlocks _ _ (by simpa using hi),
    cbcDecryptBlocks_getElem _ _ _ _ _ (by simpa using hi), toBlocks_getElem]
  split
  · rfl
  · rw [toBlocks_getElem]

theorem cbcDecryptBlocks_cbcEncryptBlocks (bs : List Block) :
    cbcDecryptBlocks k sb iv (cbcEncryptBlocks k sb iv bs) = bs := by
  induction bs generalizing iv with
  | nil => rfl
  | cons b bs ih => rw [cbcEncryptBlocks, cbcDecryptBlocks, decryptBlock_encryptBlock, xorBlock_cancel, ih]

theorem length_cbcEncrypt (h : p.length % 16 = 0) : (cbcEncrypt k sb iv p).length = p.length := by
  simp only [cbcEncrypt, fromBlocks_length, cbcEncryptBlocks_length, toBlocks_length]
  omega

theorem cbcDecrypt_cbcEncrypt (h : p.length % 16 = 0) : cbcDecrypt k sb iv (cbcEncrypt k sb iv p) = p := by
  have hblocks : toBlocks (p.length / 16) (cbcEncrypt k sb iv p) =
      cbcEncryptBlocks k sb iv (toBlocks (p.length / 16) p) := by
    simpa [cbcEncrypt] using toBlocks_fromBlocks (cbcEncryptBlocks k sb iv (toBlocks (p.length / 16) p))
  rw [cbcDecrypt, length_cbcEncrypt k sb iv h, hblocks, cbcDecryptBlocks_cbcEncryptBlocks,
    fromBlocks_toBlocks (by omega)]

end Chained

/-- Settles O32: block by block, decryption undoes the block encryption and the exclusive or with the block before cancels. -/
theorem cbcDecryptInvertsCbcEncrypt : Obligations.CbcDecryptInvertsCbcEncrypt :=
  fun k sb iv _ h => ⟨cbcDecrypt_cbcEncrypt k sb iv h, length_cbcEncrypt k sb iv h⟩

/-! ### The round trip of a message (44_chaining.md R177) -/

theorem decryptMessage_encryptMessage (pt key : List Byte) (iv : Block) :
    decryptMessage (encryptMessage pt key iv) key iv = padInsert pt :=
  cbcDecrypt_cbcEncrypt _ _ _ (by rw [length_padInsert, encryptedSize_mod])

theorem take_length_padInsert (m : List Byte) : (padInsert m).take m.length = m := List.take_left

theorem recoveredLength_padInsert_eq_length_iff {m : List Byte} (hm : 1 ≤ m.length) :
    recoveredLength (padInsert m) = m.length ↔ m.length % 16 ≠ 0 ∨ ∀ v, ¬ LooksPadded m v := by
  by_cases h : m.length % 16 = 0
  · rw [padInsert_of_aligned h, recoveredLength_eq_length_iff hm, or_iff_right (not_not.2 h)]
  · exact iff_of_true (recoveredLength_padInsert_of_unaligned h) (.inl h)

/-- Settles O33: `Decrypt` undoes `Encrypt` down to the padding, and the message stands first in its padded form, so its
recovered length alone decides. -/
theorem messageRoundTrip : Obligations.MessageRoundTrip := by
  intro key iv pt _ hpt
  refine ⟨decryptMessage_encryptMessage pt key iv, length_encryptMessage pt key iv, ?_⟩
  rw [and_iff_left_of_imp fun h => by rw [h, take_length_padInsert]]
  exact recoveredLength_padInsert_eq_length_iff hpt

/-! ### Blocks in memory (44_chaining.md R165, 20_memory.md R51) -/

/-- Block `i` of `n` bytes of memory, as a block of the string read. -/
theorem State.readBlock_eq_blockOf_drop_memRead (s : State) (x : Nat) {n i : Nat} (hi : i < n / 16) :
    s.readBlock (x + 16 * i) = blockOf ((s.memRead x n).drop (16 * i)) := by
  apply Vector.ext
  intro j hj
  rw [State.readBlock, blockOf_getElem _ _ hj, blockOf_getElem _ _ hj, s.getD_memRead _ hj, List.getD_eq_getElem?_getD,
    List.getElem?_drop, ← List.getD_eq_getElem?_getD, s.getD_memRead x (by omega), Nat.add_assoc]

/-- Memory that holds a chained encryption holds its recurrence (R166). -/
theorem readBlock_of_memRead_eq_cbcEncrypt {t : State} {x n : Nat} {k : RoundKeys} {sb : SBoxes} {iv : Block} {p : List Byte}
    (hp : p.length = n) (h : t.memRead x n = cbcEncrypt k sb iv p) {i : Nat} (hi : i < n / 16) :
    t.readBlock (x + 16 * i) =
      encryptBlock k sb (xorBlock (blockOf (p.drop (16 * i))) (if i = 0 then iv else t.readBlock (x + 16 * (i - 1)))) := by
  rw [t.readBlock_eq_blockOf_drop_memRead x hi, h, blockOf_drop_cbcEncrypt k sb iv (hp.symm ▸ hi)]
  split
  · rfl
  · rw [t.readBlock_eq_blockOf_drop_memRead x (n := n) (by omega), h]

/-- Memory that holds a chained decryption of what another memory held has its blocks from the blocks there (R167). -/
theorem readBlock_of_memRead_eq_cbcDecrypt {s t : State} {x y n : Nat} {k : RoundKeys} {sb : SBoxes} {iv : Block}
    (h : t.memRead x n = cbcDecrypt k sb iv (s.memRead y n)) {i : Nat} (hi : i < n / 16) :
    t.readBlock (x + 16 * i) =
      xorBlock (decryptBlock k sb (s.readBlock (y + 16 * i))) (if i = 0 then iv else s.readBlock (y + 16 * (i - 1))) := by
  rw [t.readBlock_eq_blockOf_drop_memRead x hi, h, blockOf_drop_cbcDecrypt k sb iv (by rwa [State.length_memRead]),
    s.readBlock_eq_blockOf_drop_memRead y hi]
  split
  · rfl
  · rw [s.readBlock_eq_blockOf_drop_memRead y (n := n) (by omega)]

/-! ### The commands `ENC` and `DEC` (44_chaining.md R170 to R175) -/

section Completed

variable (s : State) (h : s.mem.wf) (x : Nat) {v : List Byte} {n : Nat} (hv : v.length = n) (r : Nat)
include h hv

/-- What `ENC` or `DEC` stored is read back from where it was stored. -/
theorem State.memRead_completed : ((s.memWrite x v).clearSchedule.finish r).memRead x n = v := by
  subst hv
  exact s.memRead_memWrite_same h x v

/-- What `ENC` and `DEC` leave as it was when they complete, and the schedule store they clear. -/
theorem State.frame_completed :
    SameMemoryOutside s ((s.memWrite x v).clearSchedule.finish r) x n ∧
      ScheduleCleared ((s.memWrite x v).clearSchedule.finish r) ∧
      OperandsKept s ((s.memWrite x v).clearSchedule.finish r) ∧
      ((s.memWrite x v).clearSchedule.finish r).blk = s.blk := by
  subst hv
  exact ⟨s.sameMemoryOutside_memWrite h x v, scheduleCleared_clearSchedule (s.memWrite x v),
    ⟨rfl, rfl, rfl, rfl, rfl, rfl, rfl, rfl, rfl, rfl, rfl, rfl⟩, rfl⟩

end Completed

/-- `ENC` writes as many bytes as it reports. -/
theorem length_encryptMessage_memRead (s : State) :
    (encryptMessage (s.memRead s.src s.slen) s.keyBytes s.iv).length = encryptedSize s.slen := by
  rw [length_encryptMessage, State.length_memRead]

/-- Settles O30: `ENC` writes the string `Encrypt` makes of the source before the store, so the bytes read back from `DST`
meet the recurrence of `CbcEncrypt`. -/
theorem encWritesTheChainedCiphertext : Obligations.EncWritesTheChainedCiphertext := by
  refine ⟨rfl, fun s hm hk hd hsrc hdst => ?complete,
    fun s hk => ⟨_, execEnc_of_not_keyLengthOk hk, raisedAndCleared_clearSchedule_raise s .invalidKeyLength⟩,
    fun s hk hd => ⟨_, execEnc_of_dcap_lt hk hd, raisedAndCleared_clearSchedule_raise s .bufferTooSmall⟩⟩
  have hlen := length_encryptMessage_memRead s
  have hread := s.memRead_completed hm s.dst hlen (encryptedSize s.slen)
  have hpad : (padInsert (s.memRead s.src s.slen)).length = encryptedSize s.slen := by
    rw [length_padInsert, State.length_memRead]
  exact ⟨_, execEnc_of_fits hk hd hsrc hdst, rfl, rfl, fun _ => readBlock_of_memRead_eq_cbcEncrypt hpad hread,
    s.frame_completed hm s.dst hlen _⟩

section Dec

variable {s : State}

/-- `DEC` with all its checks passed (R174). -/
theorem execDec_of_fits (hc : CiphertextLengthOk s) (hk : KeyLengthOk s) (hd : s.slen ≤ s.dcap)
    (hsrc : Fits s.cfg s.src s.slen) (hdst : Fits s.cfg s.dst s.slen) :
    exec .dec s =
      .next ((s.memWrite s.dst (decryptMessage (s.memRead s.src s.slen) s.keyBytes s.iv)).clearSchedule.finish
        (recoveredLength (decryptMessage (s.memRead s.src s.slen) s.keyBytes s.iv))) := by
  rcases execDec_cases s with ⟨hc', -⟩ | ⟨-, hk', -⟩ | ⟨-, -, hd', -⟩ | ⟨-, -, -, he⟩
  · exact absurd hc hc'
  · exact absurd hk hk'
  · exact absurd hd' (Nat.not_lt.2 hd)
  · exact he.trans (onRanges_of_fits (by simpa using ⟨hsrc, hdst⟩))

theorem execDec_of_not_keyLengthOk (hc : CiphertextLengthOk s) (hk : ¬ KeyLengthOk s) :
    exec .dec s = .next (s.clearSchedule.raise .invalidKeyLength) := by
  rcases execDec_cases s with ⟨hc', -⟩ | ⟨-, -, he⟩ | ⟨-, hk', -⟩ | ⟨-, hk', -⟩
  · exact absurd hc hc'
  · exact he
  · exact absurd hk' hk
  · exact absurd hk' hk

theorem execDec_of_dcap_lt (hc : CiphertextLengthOk s) (hk : KeyLengthOk s) (hd : s.dcap < s.slen) :
    exec .dec s = .next (s.clearSchedule.raise .bufferTooSmall) := by
  rcases execDec_cases s with ⟨hc', -⟩ | ⟨-, hk', -⟩ | ⟨-, -, -, he⟩ | ⟨-, -, hd', -⟩
  · exact absurd hc hc'
  · exact absurd hk hk'
  · exact he
  · exact absurd hd (Nat.not_lt.2 hd')

end Dec

/-- Settles O31: `DEC` writes the string `Decrypt` makes of the source before the store, so its blocks are functions of the
ciphertext blocks held then, and `RESULT` is the recovered length of what is read back from `DST`. -/
theorem decWritesTheChainedPlaintext : Obligations.DecWritesTheChainedPlaintext := by
  refine ⟨rfl, fun s hm hc hk hd hsrc hdst => ?complete,
    fun s hc => ⟨_, execDec_of_not_ciphertextLengthOk hc,
      raisedAndCleared_clearSchedule_raise s .invalidCiphertextLength⟩,
    fun s hc hk => ⟨_, execDec_of_not_keyLengthOk hc hk, raisedAndCleared_clearSchedule_raise s .invalidKeyLength⟩,
    fun s hc hk hd => ⟨_, execDec_of_dcap_lt hc hk hd, raisedAndCleared_clearSchedule_raise s .bufferTooSmall⟩⟩
  have hlen := length_decryptMessage_memRead s hc
  have hread := s.memRead_completed hm s.dst hlen
    (recoveredLength (decryptMessage (s.memRead s.src s.slen) s.keyBytes s.iv))
  exact ⟨_, execDec_of_fits hc hk hd hsrc hdst, rfl, congrArg recoveredLength hread.symm,
    fun _ => readBlock_of_memRead_eq_cbcDecrypt hread, s.frame_completed hm s.dst hlen _⟩

/-! ### The round trip in hardware (44_chaining.md R179) -/

/-- What a completed `ENC` leaves for a `DEC` of its output: the ciphertext of the message, a range that fits, and the key and
the IV it used (R172). -/
theorem ciphertext_of_execEnc {s t : State} (hm : s.mem.wf) (h : exec .enc s = .next t) (hok : t.status = 0) :
    t.mem.wf ∧ t.cfg = s.cfg ∧ KeyLengthOk t ∧ t.result = encryptedSize s.slen ∧ Fits t.cfg s.dst t.result ∧
      t.memRead s.dst t.result = encryptMessage (s.memRead s.src s.slen) t.keyBytes t.iv := by
  cases exec_effect h with
  | raised e hi => simp at hi
  | raisedAndCleared e hi => exact absurd hok e.code_ne_ok
  | enc hk _ _ hdst =>
    exact ⟨Memory.storeAll_wf hm _ _, rfl, hk, rfl, hdst,
      s.memRead_completed hm s.dst (length_encryptMessage_memRead s) _⟩

/-- `DEC` of a source that holds `Encrypt` of a message under the command's own key and IV (R177). -/
theorem execDec_of_memRead_eq_encryptMessage {s : State} {pt : List Byte} (hm : s.mem.wf)
    (hct : s.memRead s.src s.slen = encryptMessage pt s.keyBytes s.iv) (hc : CiphertextLengthOk s) (hk : KeyLengthOk s)
    (hd : s.slen ≤ s.dcap) (hsrc : Fits s.cfg s.src s.slen) (hdst : Fits s.cfg s.dst s.slen) :
    ∃ u, exec .dec s = .next u ∧ u.status = 0 ∧ u.memRead s.dst s.slen = padInsert pt ∧
      u.result = recoveredLength (padInsert pt) := by
  have hpt : decryptMessage (s.memRead s.src s.slen) s.keyBytes s.iv = padInsert pt := by
    rw [hct, decryptMessage_encryptMessage]
  have hlen := length_decryptMessage_memRead s hc
  have hexec := execDec_of_fits hc hk hd hsrc hdst
  rw [hpt] at hlen hexec
  exact ⟨_, hexec, rfl, s.memRead_completed hm s.dst hlen _, rfl⟩

/-- Settles O34: what `ENC` leaves and the premises on the destination meet the checks of `DEC`, which then undoes `Encrypt`
down to the padding. -/
theorem encThenDecRecoversTheMessage : Obligations.EncThenDecRecoversTheMessage := by
  intro s t d c hm hexec hok hlong hcap hdst
  obtain ⟨hwf, hcfg, hk, hsize, hsrc, hct⟩ := ciphertext_of_execEnc hm hexec hok
  rw [← hcfg] at hdst
  have hlegal : 0 < t.result ∧ t.result % 16 = 0 := ⟨by omega, hsize ▸ encryptedSize_mod s.slen⟩
  obtain ⟨u, hu, hstatus, hbytes, hresult⟩ := execDec_of_memRead_eq_encryptMessage
    (s := { t with src := s.dst, slen := t.result, dst := d, dcap := c }) hwf hct hlegal hk hcap hsrc hdst
  refine ⟨u, hu, hstatus, hbytes, hresult, fun h => ?_⟩
  rw [hresult, recoveredLength_padInsert_of_unaligned (by rwa [State.length_memRead]), State.length_memRead]

end Sys2Proof.Machine
end

section
/-! PROOFS of the family 45_control.md: the command `CLR`, and what a command answers when it has no meaning. -/

namespace Sys2Proof.Machine

/-! ### The command `CLR` (45_control.md R186) -/

/-- The reset state of the same instance and host, with `CMD`, `SRC`, `SLEN`, `DST`, `DCAP` and `MEM` as before. -/
def State.cleared (s : State) : State :=
  { State.reset with
    cmd := s.cmd, src := s.src, slen := s.slen, dst := s.dst, dcap := s.dcap, mem := s.mem
    cfg := s.cfg, memEpoch := s.memEpoch, host := s.host, replies := s.replies }

theorem execClr_eq_cleared (s : State) : exec .clr s = .next s.cleared := rfl

theorem State.cleared_cleared (s : State) : s.cleared.cleared = s.cleared := rfl

/-- Settles O44: `CLR` leaves `s.cleared`, and clearing is idempotent. -/
theorem clrErasesKeyMaterial : Obligations.ClrErasesKeyMaterial := by
  refine ⟨rfl, fun s => ⟨s.cleared, execClr_eq_cleared s, rfl, ?_⟩⟩
  rw [execClr_eq_cleared, s.cleared_cleared]

/-! ### The ranges a command needs (20_memory.md R56, R59) -/

/-- The ranges, as (first address, number of bytes), that command `i` looks at once its own checks have passed. -/
def State.neededRanges (s : State) : Instr → List (Nat × Nat)
  | .enc | .pad => [(s.src, s.slen), (s.dst, encryptedSize s.slen)]
  | .dec => [(s.src, s.slen), (s.dst, s.slen)]
  | .unpad => [(s.src, s.slen)]
  | .esize | .ks | .eblk | .dblk | .clr => []

theorem exists_not_fits_pair_iff (c : Config) (x n y m : Nat) :
    (∃ r ∈ [(x, n), (y, m)], ¬ Fits c r.1 r.2) ↔ ¬ Fits c x n ∨ ¬ Fits c y m := by simp

/-! ### The outcomes of a command (45_control.md R189) -/

/-- A command answers next (its error codes among it), refuses a padded size, or is decided by its ranges. -/
theorem exec_next_or_onRanges (i : Instr) (s : State) :
    (∃ t, exec i s = .next t) ∨
    (i = .esize ∧ exec i s = .refused .paddedSizeTooLarge ∧ 2 ^ s.cfg.aw ≤ encryptedSize s.slen) ∨
    ∃ t, exec i s = onRanges s.cfg (s.neededRanges i) t := by
  cases i with
  | esize =>
    rcases execEsize_cases s with ⟨-, he⟩ | ⟨hn, he⟩
    · exact .inl ⟨_, he⟩
    · exact .inr (.inl ⟨rfl, he, Nat.not_lt.1 hn⟩)
  | enc =>
    rcases execEnc_cases s with ⟨-, he⟩ | ⟨-, -, he⟩ | ⟨-, -, he⟩
    · exact .inl ⟨_, he⟩
    · exact .inl ⟨_, he⟩
    · exact .inr (.inr ⟨_, he⟩)
  | dec =>
    rcases execDec_cases s with ⟨-, he⟩ | ⟨-, -, he⟩ | ⟨-, -, -, he⟩ | ⟨-, -, -, he⟩
    · exact .inl ⟨_, he⟩
    · exact .inl ⟨_, he⟩
    · exact .inl ⟨_, he⟩
    · exact .inr (.inr ⟨_, he⟩)
  | ks => rcases execKs_cases s with ⟨-, he⟩ | ⟨-, he⟩ <;> exact .inl ⟨_, he⟩
  | eblk => rcases execEblk_cases s with ⟨-, he⟩ | ⟨-, he⟩ <;> exact .inl ⟨_, he⟩
  | dblk => rcases execDblk_cases s with ⟨-, he⟩ | ⟨-, he⟩ <;> exact .inl ⟨_, he⟩
  | pad =>
    rcases execPad_cases s with ⟨-, he⟩ | ⟨-, he⟩
    · exact .inl ⟨_, he⟩
    · exact .inr (.inr ⟨_, he⟩)
  | unpad =>
    rcases execUnpad_cases s with ⟨-, he⟩ | ⟨-, he⟩
    · exact .inl ⟨_, he⟩
    · exact .inr (.inr ⟨_, he⟩)
  | clr => exact .inl ⟨_, execClr_eq_cleared s⟩

/-- Every outcome of a command; a refusal for a range names a needed range that does not fit. -/
theorem exec_outcome (i : Instr) (s : State) :
    (∃ t, exec i s = .next t) ∨
    (i = .esize ∧ exec i s = .refused .paddedSizeTooLarge ∧ 2 ^ s.cfg.aw ≤ encryptedSize s.slen) ∨
    (RefusedForRange (exec i s) ∧ ∃ r ∈ s.neededRanges i, ¬ Fits s.cfg r.1 r.2) := by
  rcases exec_next_or_onRanges i s with h | h | ⟨t, he⟩
  · exact .inl h
  · exact .inr (.inl h)
  · rcases onRanges_cases s.cfg (s.neededRanges i) t with ⟨hn, -⟩ | hr
    · exact .inl ⟨t, he.trans hn⟩
    · exact .inr (.inr (he ▸ hr))

/-- A needed range that does not fit, command by command. -/
theorem not_fits_of_neededRanges {i : Instr} {s : State} (h : ∃ r ∈ s.neededRanges i, ¬ Fits s.cfg r.1 r.2) :
    (i = .enc ∨ i = .pad) ∧ (¬ Fits s.cfg s.src s.slen ∨ ¬ Fits s.cfg s.dst (encryptedSize s.slen)) ∨
    i = .dec ∧ (¬ Fits s.cfg s.src s.slen ∨ ¬ Fits s.cfg s.dst s.slen) ∨
    i = .unpad ∧ ¬ Fits s.cfg s.src s.slen := by
  cases i with
  | enc => exact .inl ⟨.inl rfl, (exists_not_fits_pair_iff ..).1 h⟩
  | pad => exact .inl ⟨.inr rfl, (exists_not_fits_pair_iff ..).1 h⟩
  | dec => exact .inr (.inl ⟨rfl, (exists_not_fits_pair_iff ..).1 h⟩)
  | unpad => exact .inr (.inr ⟨rfl, by simpa [State.neededRanges] using h⟩)
  | esize | ks | eblk | dblk | clr => simp [State.neededRanges] at h

/-! ### Refused for a range: the checks of the command passed, a needed range not fitting -/

section NotFitting

variable {s : State}

theorem execPad_of_not_fits (hd : encryptedSize s.slen ≤ s.dcap)
    (h : ∃ r ∈ s.neededRanges .pad, ¬ Fits s.cfg r.1 r.2) : RefusedForRange (exec .pad s) := by
  rcases execPad_cases s with ⟨hd', -⟩ | ⟨-, he⟩
  · exact absurd hd' (Nat.not_lt.2 hd)
  · exact he ▸ onRanges_of_not_fits h

theorem execEnc_of_not_fits (hk : KeyLengthOk s) (hd : encryptedSize s.slen ≤ s.dcap)
    (h : ∃ r ∈ s.neededRanges .enc, ¬ Fits s.cfg r.1 r.2) : RefusedForRange (exec .enc s) := by
  rcases execEnc_cases s with ⟨hk', -⟩ | ⟨-, hd', -⟩ | ⟨-, -, he⟩
  · exact absurd hk hk'
  · exact absurd hd' (Nat.not_lt.2 hd)
  · exact he ▸ onRanges_of_not_fits h

theorem execDec_of_not_fits (hc : CiphertextLengthOk s) (hk : KeyLengthOk s) (hd : s.slen ≤ s.dcap)
    (h : ∃ r ∈ s.neededRanges .dec, ¬ Fits s.cfg r.1 r.2) : RefusedForRange (exec .dec s) := by
  rcases execDec_cases s with ⟨hc', -⟩ | ⟨-, hk', -⟩ | ⟨-, -, hd', -⟩ | ⟨-, -, -, he⟩
  · exact absurd hc hc'
  · exact absurd hk hk'
  · exact absurd hd' (Nat.not_lt.2 hd)
  · exact he ▸ onRanges_of_not_fits h

theorem execUnpad_of_not_fits (hc : CiphertextLengthOk s)
    (h : ∃ r ∈ s.neededRanges .unpad, ¬ Fits s.cfg r.1 r.2) : RefusedForRange (exec .unpad s) := by
  rcases execUnpad_cases s with ⟨hc', -⟩ | ⟨-, he⟩
  · exact absurd hc hc'
  · exact he ▸ onRanges_of_not_fits h

end NotFitting

/-- Settles O45: past its checks a command is decided by the ranges it needs; the converses are the same ranges not fitting. -/
theorem everyCommandHasAnOutcome : Obligations.EveryCommandHasAnOutcome := by
  refine ⟨fun i s => ?outcome, fun s => ⟨execEsize_of_le, fun hd h => ⟨?pad, fun hk => ?enc⟩,
    fun hc hk hd h => ?dec, fun hc h => ?unpad⟩⟩
  case outcome => exact (exec_outcome i s).imp_right (.imp_right (.imp_right not_fits_of_neededRanges))
  case pad => exact execPad_of_not_fits hd ((exists_not_fits_pair_iff ..).2 h)
  case enc => exact execEnc_of_not_fits hk hd ((exists_not_fits_pair_iff ..).2 h)
  case dec => exact execDec_of_not_fits hc hk hd ((exists_not_fits_pair_iff ..).2 h)
  case unpad => exact execUnpad_of_not_fits hc ⟨(s.src, s.slen), .head _, h⟩

end Sys2Proof.Machine
end

section
/-! PROOFS of the family 60_exceptions.md: the status a command reports, and what an error leaves unchanged. -/

namespace Sys2Proof.Machine

/-! ### STATUS (60_exceptions.md R204) -/

section Status

variable {s t u : State} {i : Instr}

theorem status_of_raise {e : CmdError} (he : exec i s = .next (u.raise e)) (h : exec i s = .next t) :
    t.status = e.code := by
  cases he.symm.trans h
  rfl

theorem status_of_finish {r : Nat} (he : exec i s = .next (u.finish r)) (h : exec i s = .next t) : t.status = 0 := by
  cases he.symm.trans h
  rfl

/-- A command that has reached its ranges has passed its checks: where it answers next, it reports 0. -/
theorem status_of_onRanges_finish {c : Config} {rs : List (Nat × Nat)} {r : Nat}
    (he : exec i s = onRanges c rs (u.finish r)) (h : exec i s = .next t) : t.status = 0 := by
  obtain ⟨rfl, -⟩ := onRanges_eq_next (he.symm.trans h)
  rfl

end Status

/-- Settles O36: the cases of a command's inversion lemma are its checks in their own order, each failing one with those
before it passed. -/
theorem statusIsTheFirstFailingCheck : Obligations.StatusIsTheFirstFailingCheck := by
  intro i s t h
  cases i with
  | esize =>
    rcases execEsize_cases s with ⟨-, he⟩ | ⟨-, he⟩
    · exact status_of_finish he h
    · cases he.symm.trans h
  | enc =>
    rcases execEnc_cases s with ⟨hk, he⟩ | ⟨hk, hd, he⟩ | ⟨hk, hd, he⟩
    · simp [status_of_raise he h, hk, CmdError.code]
    · simp [status_of_raise he h, hk, hd, CmdError.code]
    · simp [status_of_onRanges_finish he h, hk, Nat.not_lt.2 hd]
  | dec =>
    rcases execDec_cases s with ⟨hc, he⟩ | ⟨hc, hk, he⟩ | ⟨hc, hk, hd, he⟩ | ⟨hc, hk, hd, he⟩
    · simp [status_of_raise he h, hc, CmdError.code]
    · simp [status_of_raise he h, hc, hk, CmdError.code]
    · simp [status_of_raise he h, hc, hk, hd, CmdError.code]
    · simp [status_of_onRanges_finish he h, hc, hk, Nat.not_lt.2 hd]
  | ks =>
    rcases execKs_cases s with ⟨hk, he⟩ | ⟨hk, he⟩
    · simp [status_of_finish he h, hk]
    · simp [status_of_raise he h, hk, CmdError.code]
  | eblk =>
    rcases execEblk_cases s with ⟨hv, he⟩ | ⟨hv, he⟩
    · simp [status_of_finish he h, hv]
    · simp [status_of_raise he h, hv, CmdError.code]
  | dblk =>
    rcases execDblk_cases s with ⟨hv, he⟩ | ⟨hv, he⟩
    · simp [status_of_finish he h, hv]
    · simp [status_of_raise he h, hv, CmdError.code]
  | pad =>
    rcases execPad_cases s with ⟨hd, he⟩ | ⟨hd, he⟩
    · simp [status_of_raise he h, hd, CmdError.code]
    · simp [status_of_onRanges_finish he h, Nat.not_lt.2 hd]
  | unpad =>
    rcases execUnpad_cases s with ⟨hc, he⟩ | ⟨hc, he⟩
    · simp [status_of_raise he h, hc, CmdError.code]
    · simp [status_of_onRanges_finish he h, hc]
  | clr => exact status_of_finish rfl h

/-! ### What an error leaves (60_exceptions.md R201) -/

theorem operandsKept_raise (s : State) (e : CmdError) : OperandsKept s (s.raise e) :=
  ⟨rfl, rfl, rfl, rfl, rfl, rfl, rfl, rfl, rfl, rfl, rfl, rfl⟩

/-- Settles O37: a nonzero `STATUS` comes from one of the two error exits, which write `STATUS`, `RESULT` and, in `KS`,
`ENC` and `DEC`, the schedule store. -/
theorem errorsLeaveEverythingElse : Obligations.ErrorsLeaveEverythingElse := by
  intro i s t h hne
  cases exec_effect h with
  | raised e hi =>
    refine ⟨rfl, rfl, rfl, operandsKept_raise s e, fun hclears => ?_, fun _ => ⟨rfl, rfl, rfl⟩⟩
    rcases hclears with rfl | rfl | rfl <;> simp at hi
  | raisedAndCleared e hi =>
    obtain ⟨-, hresult, hcleared, hoperands, hblk, hmem⟩ := raisedAndCleared_clearSchedule_raise s e
    exact ⟨hresult, hmem, hblk, hoperands, fun _ => hcleared, fun hkeeps => absurd hi (by simp [hkeeps])⟩
  | _ => exact absurd rfl hne

end Sys2Proof.Machine
end

section
/-! PROOFS of the family 70_reset_and_hazards.md: how long the cached schedule lives, and that it does not follow the key. -/

namespace Sys2Proof.Machine

/-! ### `ENC` and `DEC` drop the schedule (70_reset_and_hazards.md R228) -/

theorem ScheduleCleared.sv {t : State} (h : ScheduleCleared t) : t.sv = false := by
  obtain ⟨-, -, hsstat⟩ := h
  simp [State.sv, hsstat]

theorem scheduleCleared_of_exec_message {i : Instr} {s t : State} (hi : i = .enc ∨ i = .dec) (h : exec i s = .next t) :
    ScheduleCleared t := by
  cases exec_effect h with
  | enc | dec | raisedAndCleared => exact scheduleCleared_clearSchedule s
  | raised e hkeeps => obtain rfl | rfl := hi <;> simp at hkeeps
  | _ => simp at hi

/-- Settles O39: completed or not, both commands clear the store, and with `SV = 0` a block command raises NoSchedule. -/
theorem messageCommandsDropTheSchedule : Obligations.MessageCommandsDropTheSchedule := by
  intro i s t hi h
  have hcleared := scheduleCleared_of_exec_message hi h
  exact ⟨hcleared, hcleared.sv, execEblk_of_not_sv hcleared.sv, execDblk_of_not_sv hcleared.sv⟩

/-! ### The cached schedule does not follow the key (70_reset_and_hazards.md R229) -/

theorem State.putReg_sameSchedule (s : State) (r : Reg) (i v : Nat) : SameSchedule s (s.putReg r i v) :=
  ⟨s.putReg_k r i v, s.putReg_sb r i v, s.putReg_sstat r i v⟩

theorem State.putReg_blk_of_ne (s : State) {r : Reg} (hr : r ≠ .BLK) (i v : Nat) : (s.putReg r i v).blk = s.blk := by
  cases r with
  | BLK => exact absurd rfl hr
  | _ => rfl

theorem SameSchedule.sv {s t : State} (h : SameSchedule s t) : t.sv = s.sv := by
  obtain ⟨-, -, hsstat⟩ := h
  rw [State.sv, State.sv, hsstat]

/-- `EBLK` and `DBLK` read `BLK` and the schedule store alone (10_state.md R41). -/
theorem SameSchedule.exec_block {s t : State} (h : SameSchedule s t) (hblk : t.blk = s.blk) {j : Instr}
    (hj : j = .eblk ∨ j = .dblk) :
    ∃ u w, exec j s = .next u ∧ exec j t = .next w ∧ w.blk = u.blk ∧ w.status = u.status := by
  have hsv := h.sv
  obtain ⟨hk, hsb, -⟩ := h
  cases hs : s.sv with
  | true =>
    obtain rfl | rfl := hj
    · exact ⟨_, _, execEblk_of_sv hs, execEblk_of_sv (hsv.trans hs), by rw [hk, hsb, hblk], rfl⟩
    · exact ⟨_, _, execDblk_of_sv hs, execDblk_of_sv (hsv.trans hs), by rw [hk, hsb, hblk], rfl⟩
  | false =>
    obtain rfl | rfl := hj
    · exact ⟨_, _, execEblk_of_not_sv hs, execEblk_of_not_sv (hsv.trans hs), hblk, rfl⟩
    · exact ⟨_, _, execDblk_of_not_sv hs, execDblk_of_not_sv (hsv.trans hs), hblk, rfl⟩

/-- Settles O40: a write to `KEY` or `KLEN` is a `putReg`, which leaves the schedule store and `BLK` alone, and these are all
that a block command reads. -/
theorem cachedScheduleDoesNotFollowTheKey : Obligations.CachedScheduleDoesNotFollowTheKey := by
  intro s r i v hr hi
  have hcmd : r ≠ .CMD := by rintro rfl; simp at hr
  have hblk : r ≠ .BLK := by rintro rfl; simp at hr
  have hsched := s.putReg_sameSchedule r i v
  exact ⟨s.putReg r i v, perform_write hcmd hi v s, hsched, fun _ => hsched.exec_block (s.putReg_blk_of_ne hblk i v)⟩

end Sys2Proof.Machine
end
